-- ==== Sys2Proof/Word.lean ====
section
/-! DEFINITION. The words of the machine: a byte, a buffer key and a byte sequence in wire order (00_scope.md R6, 20_memory.md R42). -/

namespace Sys2Proof

/-- An 8-bit unsigned value; bit 7 is the most significant bit (R6). -/
abbrev Byte := BitVec 8

/-- A demultiplexing key, one byte (R5: "the key width (8 bits ...)"). -/
abbrev Key := Byte

/-- A byte sequence in wire order: index 0 is the first byte on the wire (R6, R42). -/
abbrev Bytes := List Byte

end Sys2Proof
end

