-- ==== Sys2Proof/Config.lean ====
section
/-! DEFINITION. What is fixed when the block is built: the wire constants (30_encoding.md R60, R61), the parameters (00_scope.md R5) and the one free value. -/

namespace Sys2Proof

/-- The seven wire constants and the checksum parameters, kept in one record as 93_implementation_defined.md I7 asks. -/
structure Wire where
  init : Byte
  comm : Byte
  heartbeat : Byte
  sensor : Byte
  term : Byte
  esc : Byte
  reserved : Byte
  crcPoly : Byte
  crcInit : Byte
  deriving DecidableEq, Repr

/-- The default record, the table of R60. The source's literals are unaudited: log 15, UNVERIFIED. -/
def wire : Wire where
  init := 0xFF#8
  comm := 0xAA#8
  heartbeat := 0xBB#8
  sensor := 0xCC#8
  term := 0xEE#8
  esc := 0x7E#8
  reserved := 0xDE#8
  crcPoly := 0x07#8
  crcInit := 0x00#8

/-- `IDS` of R61. -/
def identitySet : List Byte := [wire.init, wire.comm, wire.heartbeat, wire.sensor]

/-- `RES` of R61: the identities, the terminator and the escape byte. The buffer key 0xDE is not in it. -/
def reservedSet : List Byte := identitySet ++ [wire.term, wire.esc]

/-- `b in IDS` (R61). -/
def isIdentity (b : Byte) : Bool := identitySet.contains b

/-- `b in RES` (R61). -/
def isReserved (b : Byte) : Bool := reservedSet.contains b

/-- The four frame categories an identity byte selects (R60, glossary). -/
inductive Identity
  | init
  | comm
  | heartbeat
  | sensor
  deriving DecidableEq, Repr

/-- The five parameters of R5, each an argument of the build with the default the rule gives it. -/
structure Params where
  /-- `LOSS_BOUND` -/
  lossBound : Nat := 20
  /-- `MAX_CAND_LEN` -/
  maxCandLen : Nat := 256
  /-- `MAX_CANDS` -/
  maxCands : Nat := 100
  /-- `PEND_CAP`: bytes the pending slot is able to hold -/
  pendCap : Nat := max maxCandLen lossBound + maxCandLen
  /-- `PAYLOAD_CAP`: bytes one Entry payload is able to hold -/
  payloadCap : Nat := pendCap
  deriving DecidableEq, Repr

/-- The build with every parameter of R5 at its default. -/
def Params.default : Params := {}

/-- The bytes a reassembly step can come to hold, `PBUF ++ c` (10_state.md R22): the formula of R5's two capacities. -/
def Params.neededCap (p : Params) : Nat := max p.maxCandLen p.lossBound + p.maxCandLen

/-- The stores are large enough: R5's "must be able to hold", read as a demand on a build that sets a capacity itself.
Log 20, DEDUCED. -/
abbrev Params.roomy (p : Params) : Prop := p.neededCap ≤ p.pendCap ∧ p.neededCap ≤ p.payloadCap

/-- What R69 demands of the parameters, so that every result length fits its 16-bit LEN field. -/
abbrev Params.ok (p : Params) : Prop :=
  2 * p.maxCandLen + 4 ≤ 65535 ∧ p.payloadCap ≤ 65535

/-- FREE VALUE: the two bytes of a 16-bit response field when the length it reports does not fit 16 bits.
The spec states no result there (QC of R70 is 16 bits, and no rule bounds `MAX_CANDS`). Log 9, DESIGN CHOICE, safe. -/
opaque Config.oversizeField : Nat → Byte × Byte

end Sys2Proof
end

