-- ==== Sys2Proof/Syntax.lean ====
section
/-! DEFINITION. The twelve commands of the opcode map (30_encoding.md R71), each with the operands its format gives it (R68). -/

namespace Sys2Proof

/-- One command of the host. The LEN field is the length of `data` and is not a separate operand (R68, R73). -/
inductive Instr
  /-- 0x01, format D (40_checksum.md R102) -/
  | crc8 (data : Bytes)
  /-- 0x02, format D (40_checksum.md R103) -/
  | verify (data : Bytes)
  /-- 0x03, format D (41_codec.md R113) -/
  | stuff (data : Bytes)
  /-- 0x04, format D (41_codec.md R114) -/
  | unstuff (data : Bytes)
  /-- 0x05, format D (42_classifier.md R121) -/
  | classify (data : Bytes)
  /-- 0x06, format ID (41_codec.md R115) -/
  | build (idb : Byte) (data : Bytes)
  /-- 0x10, format D (44_demux.md R146) -/
  | push (data : Bytes)
  /-- 0x11, format N (44_demux.md R147) -/
  | drain
  /-- 0x12, format N (44_demux.md R148) -/
  | keys
  /-- 0x13, format K (44_demux.md R149) -/
  | fetch (key : Key)
  /-- 0x14, format N (45_control.md R160) -/
  | status
  /-- 0x1F, format N (45_control.md R161) -/
  | reset
  deriving DecidableEq, Repr

end Sys2Proof
end

