-- ==== Sys2Proof/WellFormed.lean ====
section
/-! DEFINITION. The operand checks of 30_encoding.md R69 (3) and (4) on a command, and what its message format can carry. -/

namespace Sys2Proof

/-- A command whose operands pass R69 (3) and (4): `L ≤ MAX_CAND_LEN` for formats D and ID, `IDB in IDS` for format ID.
A KEY may be any byte (R69, D30). -/
def Instr.wf (p : Params) : Instr → Bool
  | .crc8 data => data.length ≤ p.maxCandLen
  | .verify data => data.length ≤ p.maxCandLen
  | .stuff data => data.length ≤ p.maxCandLen
  | .unstuff data => data.length ≤ p.maxCandLen
  | .classify data => data.length ≤ p.maxCandLen
  | .build idb data => data.length ≤ p.maxCandLen && isIdentity idb
  | .push data => data.length ≤ p.maxCandLen
  | .drain => true
  | .keys => true
  | .fetch _ => true
  | .status => true
  | .reset => true

/-- A command that a message can carry: its DATA length fits the 16-bit LEN field (R68). -/
def Instr.encodable : Instr → Bool
  | .crc8 data => data.length ≤ 65535
  | .verify data => data.length ≤ 65535
  | .stuff data => data.length ≤ 65535
  | .unstuff data => data.length ≤ 65535
  | .classify data => data.length ≤ 65535
  | .build _ data => data.length ≤ 65535
  | .push data => data.length ≤ 65535
  | .drain => true
  | .keys => true
  | .fetch _ => true
  | .status => true
  | .reset => true

end Sys2Proof
end

