-- ==== Sys2Proof/Decode.lean ====
section
/-! DEFINITION. The command decoder and encoder (30_encoding.md R67 to R72), and the opcode table's words laid out as messages. -/

namespace Sys2Proof

/-- Why a message is no command. The decoder makes the checks R69 (1) and (2); (3) and (4) are operand checks of the
commands themselves (Machine/Operands.lean). Log 6. -/
inductive DecodeError
  /-- no byte 0 (45_control.md R162); answered ERR_FORMAT -/
  | emptyMessage
  /-- byte 0 is not in the opcode map (R72); answered ERR_OPCODE -/
  | illegalOpcode
  /-- the total length is not the format's, or there is no room for the LEN field (R69 (2)); answered ERR_FORMAT -/
  | wrongLength
  deriving DecidableEq, Repr

/-- The four command formats of R68, each with the command it makes of its operands. -/
inductive Form
  | n (i : Instr)
  | k (mk : Key → Instr)
  | d (mk : Bytes → Instr)
  | id (mk : Byte → Bytes → Instr)

/-- One row of the opcode map. -/
structure OpRow where
  opc : Byte
  form : Form

/-- The opcode map of R71. -/
def opcodeTable : List OpRow :=
  [⟨0x01#8, .d .crc8⟩,
   ⟨0x02#8, .d .verify⟩,
   ⟨0x03#8, .d .stuff⟩,
   ⟨0x04#8, .d .unstuff⟩,
   ⟨0x05#8, .d .classify⟩,
   ⟨0x06#8, .id .build⟩,
   ⟨0x10#8, .d .push⟩,
   ⟨0x11#8, .n .drain⟩,
   ⟨0x12#8, .n .keys⟩,
   ⟨0x13#8, .k .fetch⟩,
   ⟨0x14#8, .n .status⟩,
   ⟨0x1F#8, .n .reset⟩]

/-- The row whose opcode is `opc`: "match = OPC, mask = 0xFF" (R71). -/
def formOf (opc : Byte) : Option Form :=
  (opcodeTable.find? fun r => r.opc == opc).map OpRow.form

/-- A 16-bit big-endian field: the high byte first (20_memory.md R44). -/
def be16 (hi lo : Byte) : Nat := hi.toNat * 256 + lo.toNat

/-- The bytes of a 16-bit big-endian field (R44), for a value below 65536. -/
def be16Bytes (n : Nat) : Bytes := [BitVec.ofNat 8 (n / 256), BitVec.ofNat 8 n]

/-- `[LEN_HI, LEN_LO, DATA...]` with exactly L bytes of DATA (R68, R69 (2)). -/
def decodeData : Bytes → Except DecodeError Bytes
  | hi :: lo :: data => if data.length = be16 hi lo then .ok data else .error .wrongLength
  | _ => .error .wrongLength

/-- The operands after byte 0, by format (R68). -/
def decodeForm : Form → Bytes → Except DecodeError Instr
  | .n i, [] => .ok i
  | .n _, _ :: _ => .error .wrongLength
  | .k mk, [key] => .ok (mk key)
  | .k _, _ => .error .wrongLength
  | .d mk, rest => (decodeData rest).map mk
  | .id mk, idb :: rest => (decodeData rest).map (mk idb)
  | .id _, [] => .error .wrongLength

/-- Decoding of one whole message (R67 to R69, R72; 45_control.md R162), total on any bytes. -/
def decode : Bytes → Except DecodeError Instr
  | [] => .error .emptyMessage
  | opc :: rest =>
    match formOf opc with
    | none => .error .illegalOpcode
    | some form => decodeForm form rest

/-- `[LEN_HI, LEN_LO, DATA...]` (R68). -/
def encodeData (data : Bytes) : Bytes := be16Bytes data.length ++ data

/-- The message of a command (R68, R71). For an encodable command its LEN field is the length of its DATA. -/
def encode : Instr → Bytes
  | .crc8 data => 0x01#8 :: encodeData data
  | .verify data => 0x02#8 :: encodeData data
  | .stuff data => 0x03#8 :: encodeData data
  | .unstuff data => 0x04#8 :: encodeData data
  | .classify data => 0x05#8 :: encodeData data
  | .build idb data => 0x06#8 :: idb :: encodeData data
  | .push data => 0x10#8 :: encodeData data
  | .drain => [0x11#8]
  | .keys => [0x12#8]
  | .fetch key => [0x13#8, key]
  | .status => [0x14#8]
  | .reset => [0x1F#8]

/-- Byte `k` of a word numbered as spec/opcode_table.json numbers it: bit 0 is the least significant bit of byte 0. -/
def wordByte (w k : Nat) : Byte := BitVec.ofNat 8 (w >>> (8 * k))

/-- The total length R68 gives the message that begins with the bytes of `w` (0 for an illegal opcode). -/
def formLength (w : Nat) : Nat :=
  match formOf (wordByte w 0) with
  | none => 0
  | some (.n _) => 1
  | some (.k _) => 2
  | some (.d _) => 3 + be16 (wordByte w 1) (wordByte w 2)
  | some (.id _) => 4 + be16 (wordByte w 2) (wordByte w 3)

/-- The message whose bits are `w`, every bit from `nbits` on being 0: as long as its format says, and at least
`nbits / 8` bytes (log 11, DESIGN CHOICE). -/
def wordMessage (nbits w : Nat) : Bytes :=
  let v := w % 2 ^ nbits
  (List.range (max (nbits / 8) (formLength v))).map (wordByte v)

/-- The instruction the decoder reads from an opcode-table word. -/
def decodeTableWord (nbits w : Nat) : Option Instr :=
  match decode (wordMessage nbits w) with
  | .ok i => some i
  | .error _ => none

end Sys2Proof
end

