-- ==== Sys2Proof/Machine/State.lean ====
section
/-! DEFINITION. The state of the block (10_state.md R20 to R29), its port as plain data, its responses, and the reasons a step can stop. -/

namespace Sys2Proof.Machine

/-- The source's error taxonomy (10_state.md R27). -/
inductive Status
  | ok
  | notInBuffer
  | incompleteCommunication
  | transportDown
  | hostOldVersion
  | deviceOldVersion
  | deviceTimeout
  | invalidResponse
  | checksumFailed
  deriving DecidableEq, Repr

/-- `PSTATE` (R21). -/
inductive PState
  | empty
  | pending
  deriving DecidableEq, Repr

/-- One Entry of the Buffer (R23). -/
structure Entry where
  status : Status
  payload : Option Bytes
  deriving DecidableEq, Repr

/-- `TABLE` (R23), sparse: the present slots in rising key order, an absent slot unlisted (`Table.wf`). Log 7. -/
abbrev Table := List (Key × Entry)

/-- What the outside can do to the block between two steps. Log 2, log 5. -/
inductive PortEvent
  /-- the host sends one whole command message, of any bytes (30_encoding.md R67) -/
  | command (message : Bytes)
  /-- the reset input is asserted (70_reset_and_hazards.md R190) -/
  | resetInput
  deriving DecidableEq, Repr

/-- The error codes among the response codes (60_exceptions.md R170). ACK is the code of every other response. -/
inductive ErrCode
  | errOpcode
  | errFormat
  | errLength
  | errIdentity
  | errQueueFull
  deriving DecidableEq, Repr

/-- A response before its encoding (30_encoding.md R70). -/
inductive Response
  | ra
  | rb (b : Byte)
  | rd (data : Bytes)
  | rf (status : Status) (payload : Option Bytes)
  | rk (keys : BitVec 256)
  | rs (pstate : PState) (plen qc : Nat)
  | err (rc : ErrCode)
  deriving DecidableEq, Repr

/-- The result of `decode(f)` on a frame (44_demux.md R140 to R142). -/
inductive Decoded
  /-- the frame is filed under `k` -/
  | entry (k : Key) (e : Entry)
  /-- DROP -/
  | drop
  /-- the arm "any other byte", which is never given a value (R140, 93_implementation_defined.md I1) -/
  | unrecognized
  deriving DecidableEq, Repr

/-- The state of the block. -/
structure State where
  /-- the build's parameters (00_scope.md R5), never written; the MODEL's own place for them, log 1 -/
  params : Params
  /-- `PSTATE` (10_state.md R21) -/
  pstate : PState
  /-- `PBUF` (R21), `[]` while `pstate` is empty -/
  pbuf : Bytes
  /-- `TABLE` (R23, R24) -/
  table : Table
  /-- `CQ` (R25), oldest candidate first -/
  cq : List Bytes
  /-- events at the port not yet taken, earliest first; the MODEL's own field, log 2 -/
  inbox : List PortEvent
  /-- response messages sent, earliest first; the MODEL's own field, log 4 -/
  outbox : List Bytes
  deriving DecidableEq, Repr

/-- The working state of one DRAIN: the elements it writes, and `SEEN`, which lives only inside it (R26). -/
structure Cycle where
  pstate : PState
  pbuf : Bytes
  table : Table
  /-- `SEEN`, the keys filed in this cycle, no key twice (log 14) -/
  seen : List Key
  deriving DecidableEq, Repr

/-- Why the machine stops with a fault. -/
inductive Fault
  /-- Raised by DRAIN if `decode` meets a frame whose first unstuffed byte is no identity. 93_implementation_defined.md I1
  asks for a fault that is never reached: a complete candidate always begins with an identity (42_classifier.md R122(b)).
  Safe: no run meets it. Log 8. -/
  | unrecognizedIdentity
  deriving DecidableEq, Repr

/-- Why a command has no meaning in the model. -/
inductive Refusal
  /-- Raised by `exec` alone, for a command of the opcode table that has no meaning yet; no arm of it does now. Safe. -/
  | notModelled (mnemonic : String)
  deriving DecidableEq, Repr

/-- The outcome of a step or of a command. -/
abbrev Result := Host.Outcome State Fault Refusal

/-- The block with parameters `p` right after reset (10_state.md R29), its port idle. -/
def State.resetWith (p : Params) : State where
  params := p
  pstate := .empty
  pbuf := []
  table := []
  cq := []
  inbox := []
  outbox := []

/-- The block right after reset, with the default parameters of 00_scope.md R5. -/
def State.reset : State := State.resetWith Params.default

end Sys2Proof.Machine
end

