-- ==== Sys2Proof/Machine/Flags.lean ====
section
/-! DEFINITION. The status bits of the block (10_state.md R28): Status codes, PSTATE, VALID bits and response codes as the host reads them, and the encoding of a response (30_encoding.md R70). -/

namespace Sys2Proof.Machine

/-- The 4-bit Status codes (10_state.md R27). -/
def Status.code : Status → BitVec 4
  | .ok => 0x0#4
  | .notInBuffer => 0x1#4
  | .incompleteCommunication => 0x2#4
  | .transportDown => 0x3#4
  | .hostOldVersion => 0x4#4
  | .deviceOldVersion => 0x5#4
  | .deviceTimeout => 0x6#4
  | .invalidResponse => 0x7#4
  | .checksumFailed => 0x8#4

/-- A Status code as a response byte (R103, R70). -/
def Status.byte (st : Status) : Byte := st.code.setWidth 8

/-- The PS byte of format RS (R70). -/
def PState.byte : PState → Byte
  | .empty => 0x00#8
  | .pending => 0x01#8

/-- The byte of a boolean result (30_encoding.md R71, CLASSIFY). -/
def boolByte (b : Bool) : Byte := if b then 0x01#8 else 0x00#8

/-- The error codes of 60_exceptions.md R170. -/
def ErrCode.byte : ErrCode → Byte
  | .errOpcode => 0x01#8
  | .errFormat => 0x02#8
  | .errLength => 0x03#8
  | .errIdentity => 0x04#8
  | .errQueueFull => 0x05#8

/-- The `ACK` code (R170). -/
def ackByte : Byte := 0x00#8

/-- The VALID bits of TABLE: `M[k] = 1 iff TABLE[k] is present` (44_demux.md R148). -/
def validBits (t : Table) : BitVec 256 :=
  t.foldr (fun p m => m ||| BitVec.twoPow 256 p.1.toNat) 0#256

/-- The 32 bytes of a key bitmap: key `k` at byte `k >> 3`, bit `k & 7` (30_encoding.md R70). -/
def bitmapBytes (m : BitVec 256) : Bytes := (List.range 32).map fun j => m.extractLsb' (8 * j) 8

/-- A 16-bit big-endian length field of a response (R70, 20_memory.md R44). Where the length does not fit 16 bits
the spec states no value, and the two bytes are free (log 9). -/
def lenField (n : Nat) : Bytes :=
  if n < 65536 then [BitVec.ofNat 8 (n / 256), BitVec.ofNat 8 n]
  else [(Config.oversizeField n).1, (Config.oversizeField n).2]

/-- The response message (R70). -/
def Response.encode : Response → Bytes
  | .ra => [ackByte]
  | .rb b => [ackByte, b]
  | .rd data => ackByte :: (lenField data.length ++ data)
  | .rf st (some data) => ackByte :: st.byte :: (lenField data.length ++ data)
  | .rf st none => ackByte :: st.byte :: lenField 0
  | .rk keys => ackByte :: bitmapBytes keys
  | .rs ps plen qc => ackByte :: ps.byte :: (lenField plen ++ lenField qc)
  | .err rc => [rc.byte]

end Sys2Proof.Machine
end

