-- ==== Sys2Proof/Machine/Frame.lean ====
section
/-! DEFINITION. The pure functions of 00_scope.md R8 over byte sequences: checksum, stuffing, classification, frame building and frame decoding. -/

namespace Sys2Proof.Machine

/-- `s[a..b)` of R6, with `a` and `b` clipped; `[]` when `a ≥ b`. -/
def slice (a b : Nat) (s : Bytes) : Bytes := (s.take b).drop a

/-- One shift of the CRC register, bit 7 first (40_checksum.md R100). -/
def crc8Shift (c : Byte) : Byte := if c.msb then (c <<< 1) ^^^ wire.crcPoly else c <<< 1

/-- `n` shifts of the CRC register. -/
def crc8Shifts : Nat → Byte → Byte
  | 0, c => c
  | n + 1, c => crc8Shifts n (crc8Shift c)

/-- One input byte: "XOR into accumulator, then 8 shift/conditional-XOR steps" (R100). -/
def crc8Byte (c b : Byte) : Byte := crc8Shifts 8 (c ^^^ b)

/-- The CRC of `s` run from the accumulator `c` (R104(b)). -/
def crc8From (c : Byte) (s : Bytes) : Byte := s.foldl crc8Byte c

/-- `crc8(s)` (R100). -/
def crc8 (s : Bytes) : Byte := crc8From wire.crcInit s

/-- `stuff(s)`: an escape before every reserved byte (41_codec.md R110). -/
def stuff : Bytes → Bytes
  | [] => []
  | b :: s => if isReserved b then wire.esc :: b :: stuff s else b :: stuff s

/-- `unstuff(s)`: an escape is dropped and the byte after it kept verbatim; a dangling escape is dropped (R111). -/
def unstuff : Bytes → Bytes
  | [] => []
  | [b] => if b = wire.esc then [] else [b]
  | b :: x :: s => if b = wire.esc then x :: unstuff s else b :: unstuff (x :: s)

/-- `verify(f)` (40_checksum.md R101): the checksum byte is `u[n-2]` of the unstuffed frame. -/
def verify (f : Bytes) : Status :=
  let u := unstuff f
  let n := u.length
  if n < 2 then .checksumFailed
  else if u[n - 2]? = some (crc8 (slice 0 (n - 2) u)) then .ok
  else .checksumFailed

/-- `is_complete(c)`, on the raw candidate (42_classifier.md R120). -/
def isComplete (c : Bytes) : Bool :=
  decide (4 < c.length) && c.head?.any isIdentity && (c.getLast? == some wire.term)

/-- `build(id, body)`: the identity and the terminator are not stuffed (41_codec.md R112, 30_encoding.md R63). -/
def build (id : Byte) (body : Bytes) : Bytes :=
  [id] ++ stuff (body ++ [crc8 ([id] ++ body)]) ++ [wire.term]

/-- The category an identity byte selects (30_encoding.md R60). -/
def identityOf (b : Byte) : Option Identity :=
  if b = wire.init then some .init
  else if b = wire.comm then some .comm
  else if b = wire.heartbeat then some .heartbeat
  else if b = wire.sensor then some .sensor
  else none

/-- The Entry of the received frame `f` with payload slice `pl` (44_demux.md R141). -/
def entryOf (f pl : Bytes) : Entry :=
  if verify f = .ok then ⟨.ok, some pl⟩ else ⟨.checksumFailed, none⟩

/-- The pair `(k, e)`, or DROP for the reserved key (R142). -/
def keyed (k : Key) (e : Entry) : Decoded := if k = wire.reserved then .drop else .entry k e

/-- The COMM and SENSOR arm (R140; offsets of 30_encoding.md R64): key `u[2]`, payload `u[3..n-2)`, DROP when `n < 5`. -/
def decodeSub (f : Bytes) : Bytes → Decoded
  | u@(_ :: _ :: k :: _) => if u.length < 5 then .drop else keyed k (entryOf f (slice 3 (u.length - 2) u))
  | _ => .drop

/-- `decode(f)` (R140 to R142; offsets of 30_encoding.md R64). -/
def decodeFrame (f : Bytes) : Decoded :=
  let u := unstuff f
  match u.head?.bind identityOf with
  | some .init => keyed wire.init (entryOf f (slice 0 (u.length - 2) u))
  | some .heartbeat => keyed wire.heartbeat (entryOf f (slice 2 (u.length - 2) u))
  | some .comm => decodeSub f u
  | some .sensor => decodeSub f u
  | none => .unrecognized

end Sys2Proof.Machine
end

