-- ==== Sys2Proof/Machine/Ops.lean ====
section
/-! DEFINITION. The named operations over the block's stores and its port: TABLE slots, filing, the reassembly step, one DRAIN's loop, responding, refusing and resetting. -/

namespace Sys2Proof.Machine

/-- `TABLE[k]`, `none` when absent (10_state.md R23). -/
def Table.get : Table → Key → Option Entry
  | [], _ => none
  | (k', e) :: t, k => if k' = k then some e else Table.get t k

/-- `TABLE[k] <- e`, overwriting (44_demux.md R143). -/
def Table.set : Table → Key → Entry → Table
  | [], k, e => [(k, e)]
  | (k', e') :: t, k, e =>
    if k = k' then (k, e) :: t
    else if k.toNat < k'.toNat then (k, e) :: (k', e') :: t
    else (k', e') :: Table.set t k e

/-- `TABLE[k] <- absent` (R149). -/
def Table.erase (t : Table) (k : Key) : Table := t.filter fun p => p.1 != k

/-- The canonical form: keys strictly rising, so no key twice (log 7). -/
abbrev Table.wf (t : Table) : Prop := (t.map fun p => p.1.toNat).Pairwise (· < ·)

/-- `file(k, e)` (R143): the first filing of a key in a cycle stands. -/
def file (k : Key) (e : Entry) (cy : Cycle) : Cycle :=
  if k ∈ cy.seen then cy else { cy with seen := k :: cy.seen, table := cy.table.set k e }

/-- What DRAIN does with the result of `decode` (R144, 43_reassembly.md R133). -/
def fileDecoded : Decoded → Cycle → Except Fault Cycle
  | .entry k e, cy => .ok (file k e cy)
  | .drop, cy => .ok cy
  | .unrecognized, _ => .error .unrecognizedIdentity

/-- `reasm(c)`, one step of the reassembly machine (43_reassembly.md R130 to R134). -/
def reasm (lossBound : Nat) (c : Bytes) (cy : Cycle) : Except Fault Cycle :=
  match cy.pstate with
  | .empty => .ok { cy with pstate := .pending, pbuf := c }
  | .pending =>
    let q := cy.pbuf ++ c
    if isComplete q then fileDecoded (decodeFrame q) { cy with pstate := .empty, pbuf := [] }
    else if lossBound < q.length then .ok { cy with pstate := .empty, pbuf := [] }
    else .ok { cy with pbuf := q }

/-- `process(c)`, one candidate inside a DRAIN (44_demux.md R144). -/
def process (lossBound : Nat) (c : Bytes) (cy : Cycle) : Except Fault Cycle :=
  if isComplete c then fileDecoded (decodeFrame c) cy else reasm lossBound c cy

/-- The candidates of a DRAIN one after another, in the order given. -/
def drainLoop (lossBound : Nat) : List Bytes → Cycle → Except Fault Cycle
  | [], cy => .ok cy
  | c :: cs, cy =>
    match process lossBound c cy with
    | .ok cy' => drainLoop lossBound cs cy'
    | .error f => .error f

/-- The working state a DRAIN starts from: `SEEN <- {}` (R147). -/
def State.startCycle (s : State) : Cycle := ⟨s.pstate, s.pbuf, s.table, []⟩

/-- The end of a DRAIN: the elements it wrote, `CQ <- []`, and `SEEN` discarded (R147). -/
def State.endCycle (s : State) (cy : Cycle) : State :=
  { s with pstate := cy.pstate, pbuf := cy.pbuf, table := cy.table, cq := [] }

/-- `TABLE <- t`. -/
def State.withTable (s : State) (t : Table) : State := { s with table := t }

/-- `CQ <- q`. -/
def State.withQueue (s : State) (q : List Bytes) : State := { s with cq := q }

/-- Every state element of 10_state.md R29 takes its reset value. The parameters and the port stay (log 5). -/
def State.clearElements (s : State) : State :=
  { s with pstate := .empty, pbuf := [], table := [], cq := [] }

/-- `respond(...)` (00_scope.md R7): the response message goes to the host. -/
def State.respond (s : State) (r : Response) : State := { s with outbox := s.outbox ++ [r.encode] }

/-- `refuse(rc)` (00_scope.md R7, 60_exceptions.md R171): the error response, every state element as it was. -/
def refuse (rc : ErrCode) (s : State) : Result := .next (s.respond (.err rc))

/-- The error code that answers a message the decoder rejects (60_exceptions.md R170, 45_control.md R162). -/
def rejectCode : DecodeError → ErrCode
  | .emptyMessage => .errFormat
  | .illegalOpcode => .errOpcode
  | .wrongLength => .errFormat

/-- The outcome of a message the decoder rejects. -/
def rejectMessage (e : DecodeError) (s : State) : Result := refuse (rejectCode e) s

/-- The next event at the port and the state with it taken. -/
def takeEvent (s : State) : Option (PortEvent × State) :=
  match s.inbox with
  | [] => none
  | ev :: rest => some (ev, { s with inbox := rest })

end Sys2Proof.Machine
end

