-- ==== Sys2Proof/Machine/Operands.lean ====
section
/-! DEFINITION. The operand checks that follow the decoder's (30_encoding.md R69 (3) and (4), 44_demux.md R146), in the order of 60_exceptions.md R172. -/

namespace Sys2Proof.Machine

/-- R69 (3): a DATA operand longer than `MAX_CAND_LEN` gets ERR_LENGTH; otherwise the command goes on. -/
def checkLength (data : Bytes) (s : State) (go : Result) : Result :=
  if s.params.maxCandLen < data.length then refuse .errLength s else go

/-- R69 (4): an IDB outside `IDS` gets ERR_IDENTITY; otherwise the command goes on. -/
def checkIdentity (idb : Byte) (s : State) (go : Result) : Result :=
  if isIdentity idb then go else refuse .errIdentity s

/-- 44_demux.md R146: a full queue, `len(CQ) = MAX_CANDS`, gets ERR_QUEUE_FULL; otherwise the command goes on (log 19). -/
def checkQueue (s : State) (go : Result) : Result :=
  if s.cq.length = s.params.maxCands then refuse .errQueueFull s else go

/-- The shape of a format-D command whose only effect is a response computed from its DATA. -/
def answerData (f : Bytes → Response) (data : Bytes) (s : State) : Result :=
  checkLength data s (.next (s.respond (f data)))

end Sys2Proof.Machine
end

