-- ==== Sys2Proof/Machine/Checksum.lean ====
section
/-! DEFINITION. The checksum commands (40_checksum.md). -/

namespace Sys2Proof.Machine

/-- CRC8 (R102). -/
def execCrc8 (data : Bytes) (s : State) : Result := answerData (fun d => .rb (crc8 d)) data s

/-- VERIFY (R103). -/
def execVerify (data : Bytes) (s : State) : Result := answerData (fun d => .rb (verify d).byte) data s

end Sys2Proof.Machine
end

