-- ==== Sys2Proof/Machine/Classifier.lean ====
section
/-! DEFINITION. The classifier command (42_classifier.md). -/

namespace Sys2Proof.Machine

/-- CLASSIFY (R121). -/
def execClassify (data : Bytes) (s : State) : Result :=
  answerData (fun d => .rb (boolByte (isComplete d))) data s

end Sys2Proof.Machine
end

