-- ==== Sys2Proof/Machine/Codec.lean ====
section
/-! DEFINITION. The frame codec commands (41_codec.md). -/

namespace Sys2Proof.Machine

/-- STUFF (R113). -/
def execStuff (data : Bytes) (s : State) : Result := answerData (fun d => .rd (stuff d)) data s

/-- UNSTUFF (R114). -/
def execUnstuff (data : Bytes) (s : State) : Result := answerData (fun d => .rd (unstuff d)) data s

/-- BUILD (R115): ERR_LENGTH comes before ERR_IDENTITY (60_exceptions.md R172). -/
def execBuild (idb : Byte) (data : Bytes) (s : State) : Result :=
  checkLength data s (checkIdentity idb s (.next (s.respond (.rd (build idb data)))))

end Sys2Proof.Machine
end

