-- ==== Sys2Proof/Machine/Control.lean ====
section
/-! DEFINITION. The control commands (45_control.md). -/

namespace Sys2Proof.Machine

/-- STATUS (R160). -/
def execStatus (s : State) : Result := .next (s.respond (.rs s.pstate s.pbuf.length s.cq.length))

/-- RESET (R161): the effect of the reset input, with a response. -/
def execReset (s : State) : Result := .next (s.clearElements.respond .ra)

end Sys2Proof.Machine
end

