-- ==== Sys2Proof/Machine/Demux.lean ====
section
/-! DEFINITION. The demultiplexer commands (44_demux.md). -/

namespace Sys2Proof.Machine

/-- PUSH (R146). -/
def execPush (data : Bytes) (s : State) : Result :=
  checkLength data s (checkQueue s (.next ((s.withQueue (s.cq ++ [data])).respond .ra)))

/-- DRAIN (R147): the queue newest-first (R145), one atomic step (20_memory.md R46). -/
def execDrain (s : State) : Result :=
  match drainLoop s.params.lossBound s.cq.reverse s.startCycle with
  | .ok cy => .next ((s.endCycle cy).respond .ra)
  | .error f => .fault f

/-- KEYS (R148). -/
def execKeys (s : State) : Result := .next (s.respond (.rk (validBits s.table)))

/-- FETCH (R149), pop-once. -/
def execFetch (key : Key) (s : State) : Result :=
  match s.table.get key with
  | some e => .next ((s.withTable (s.table.erase key)).respond (.rf e.status e.payload))
  | none => .next (s.respond (.rf .notInBuffer none))

end Sys2Proof.Machine
end

