-- ==== Sys2Proof/Machine/Dispatch.lean ====
section
/-! DEFINITION. One arm per command, each one call of its meaning. -/

namespace Sys2Proof.Machine

def exec (i : Instr) (s : State) : Host.Outcome State Fault Refusal :=
  match i with
  | .crc8 data => Sys2Proof.Machine.execCrc8 data s
  | .verify data => Sys2Proof.Machine.execVerify data s
  | .stuff data => Sys2Proof.Machine.execStuff data s
  | .unstuff data => Sys2Proof.Machine.execUnstuff data s
  | .classify data => Sys2Proof.Machine.execClassify data s
  | .build idb data => Sys2Proof.Machine.execBuild idb data s
  | .push data => Sys2Proof.Machine.execPush data s
  | .drain => Sys2Proof.Machine.execDrain s
  | .keys => Sys2Proof.Machine.execKeys s
  | .fetch key => Sys2Proof.Machine.execFetch key s
  | .status => Sys2Proof.Machine.execStatus s
  | .reset => Sys2Proof.Machine.execReset s

end Sys2Proof.Machine
end

