-- ==== Sys2Proof/Machine/Step.lean ====
section
/-! DEFINITION. One step of the block: one whole transaction at its port (00_scope.md R9). -/

namespace Sys2Proof.Machine

/-- One transaction. A command message runs its command, or gets the error response its form calls for (30_encoding.md R69);
the reset input resets every element and sends no response (70_reset_and_hazards.md R190); with nothing at the port the block
does nothing (60_exceptions.md R175; log 3). -/
def step (s : State) : Host.Outcome State Fault Refusal :=
  match takeEvent s with
  | none => .next s
  | some (.resetInput, s') => .next s'.clearElements
  | some (.command msg, s') =>
    match decode msg with
    | .ok i => exec i s'
    | .error e => rejectMessage e s'

/-- `s` with the message of an opcode-table word as the next event at the port (log 10). -/
def State.withFetchWord (s : State) (nbits w : Nat) : State :=
  { s with inbox := .command (wordMessage nbits w) :: s.inbox }

end Sys2Proof.Machine
end

