-- ==== Sys2Proof/Machine/Pseudo.lean ====
section
/-! DEFINITION. The pseudo-operations of 30_encoding.md R74: host operations written as the commands a host issues. They are not opcodes and no step runs one. -/

namespace Sys2Proof.Machine

/-- `hi(v) = v[15:8]` (R74). -/
def hiByte (v : BitVec 16) : Byte := v.extractLsb' 8 8

/-- `lo(v) = v[7:0]` (R74). -/
def loByte (v : BitVec 16) : Byte := v.extractLsb' 0 8

/-- 16-bit values in a frame body, high byte first (20_memory.md R42). -/
def valuesBody (vs : List (BitVec 16)) : Bytes := vs.flatMap fun v => [hiByte v, loByte v]

/-- `POLL` = `DRAIN` then `KEYS`. -/
def pseudoPoll : List Instr := [.drain, .keys]

/-- `SEND cmd, v1..vn`. -/
def pseudoSend (address cmd : Byte) (vs : List (BitVec 16)) : Instr :=
  .build wire.comm ([address, cmd] ++ valuesBody vs)

/-- `INIT_FRAME interval`. -/
def pseudoInitFrame (address hostVersion hostSubVersion interval : Byte) : Instr :=
  .build wire.init [address, hostVersion, hostSubVersion, interval]

/-- The two questions R74 leaves open about REGISTER_SENSOR, as arguments (log 16). -/
structure RegisterReading where
  /-- "identity SENSOR" is the frame's identity byte (then `cmd` is the command byte), not the command byte of a COMM frame -/
  sensorIsFrameIdentity : Bool
  /-- the first byte of each pair is the high byte -/
  firstIsHigh : Bool
  deriving DecidableEq, Repr

/-- One pair of bytes as a 16-bit value, in the byte order of the reading. -/
def pairValue (r : RegisterReading) (x y : Byte) : BitVec 16 :=
  if r.firstIsHigh then x ++ y else y ++ x

/-- `REGISTER_SENSOR id, paddr, ikey, type`; `none` when the host refuses `id = 0xDE`. -/
def pseudoRegisterSensor (r : RegisterReading) (address cmd id paddr ikey type : Byte) : Option Instr :=
  let vs := [pairValue r id paddr, pairValue r ikey type]
  if id = wire.reserved then none
  else if r.sensorIsFrameIdentity then some (.build wire.sensor ([address, cmd] ++ valuesBody vs))
  else some (pseudoSend address wire.sensor vs)

/-- `FETCH_SENSOR id`. -/
def pseudoFetchSensor (id : Key) : Instr := .fetch id

/-- `FETCH_HEARTBEAT`. -/
def pseudoFetchHeartbeat : Instr := .fetch wire.heartbeat

end Sys2Proof.Machine
end

