-- ==== Sys2Proof/Safety.lean ====
section
/-! DEFINITION. What counts as a sound state of the block, in the terms claims use: the invariants of 10_state.md R21 to R25. -/

namespace Sys2Proof.Machine

/-- A present Entry as R24(b) has it: OK with a payload, or CHECKSUM_FAILED with none. -/
def Entry.legal (e : Entry) : Prop :=
  (e.status = .ok ∧ e.payload.isSome) ∨ (e.status = .checksumFailed ∧ e.payload = none)

/-- The invariants the spec states of the block between commands. -/
structure State.Inv (s : State) : Prop where
  /-- R21: "When `PSTATE = EMPTY`, `PBUF = []`." -/
  emptySlot : s.pstate = .empty → s.pbuf = []
  /-- R22 -/
  slotBound : s.pstate = .pending → s.pbuf.length ≤ max s.params.maxCandLen s.params.lossBound
  /-- the model's canonical form of TABLE (log 7) -/
  tableForm : s.table.wf
  /-- R24(a) -/
  reservedAbsent : s.table.get wire.reserved = none
  /-- R24(b) -/
  entryLegal : ∀ k e, s.table.get k = some e → e.legal
  /-- R24(c) -/
  payloadBound : ∀ k e pl, s.table.get k = some e → e.payload = some pl → pl.length ≤ s.params.payloadCap
  /-- R25 -/
  queueBound : s.cq.length ≤ s.params.maxCands
  /-- R25 -/
  candBound : ∀ c ∈ s.cq, c.length ≤ s.params.maxCandLen
  /-- 00_scope.md R5: the build's stores hold what its rules can put there; no step changes it (log 20) -/
  capacities : s.params.roomy

/-- A run in which the block never stops (60_exceptions.md R174): every step answers a next state. -/
def neverStops (s : State) : Prop := ∀ n, ∃ t, Host.Core.run Sys2Proof.core n s = .next t

end Sys2Proof.Machine
end

