-- ==== Sys2Proof/Certificates/Slice0/Obligations.lean ====
section
/-! DEFINITION. The statements about the block, taken from the numbered rules of spec/ file by file. A statement of a command's
result is also its completion statement: its conclusion is the next state, written out, so it says the frame as well. -/

namespace Sys2Proof.Claims

open Sys2Proof.Machine

/-- The next state of a command whose only effect is the response message `r`: every state element, the parameters and the
rest of the port are as before. -/
def answered (s : State) (r : Bytes) : State := { s with outbox := s.outbox ++ [r] }

/-- The operands `tail` after byte 0 fit format D: a LEN field, then exactly that many bytes (30_encoding.md R68). -/
def fitsD (tail : Bytes) : Prop :=
  ∃ hi lo data, tail = hi :: lo :: data ∧ data.length = hi.toNat * 256 + lo.toNat

/-- The operands fit format ID: an identity byte, then as format D. -/
def fitsID (tail : Bytes) : Prop := ∃ idb rest, tail = idb :: rest ∧ fitsD rest

/-- A message of byte 0 `opc` is answered ERR_FORMAT, with no state change, whenever its operands do not fit. -/
def errFormatUnless (opc : Byte) (fits : Bytes → Prop) : Prop :=
  ∀ (s : State) (tail : Bytes) (rest : List PortEvent), ¬ fits tail → s.inbox = .command (opc :: tail) :: rest →
    step s = .next (answered { s with inbox := rest } [0x02#8])

/-- `opc` is the opcode of the format-D command `mk`, and a message that does not fit gets ERR_FORMAT. -/
def formatD (opc : Byte) (mk : Bytes → Instr) : Prop :=
  (∀ (hi lo : Byte) (data : Bytes), data.length = hi.toNat * 256 + lo.toNat →
    decode (opc :: hi :: lo :: data) = .ok (mk data)) ∧
  errFormatUnless opc fitsD

/-- `opc` alone is the message of the format-N command `i`, and a longer message gets ERR_FORMAT. -/
def formatN (opc : Byte) (i : Instr) : Prop :=
  decode [opc] = .ok i ∧ errFormatUnless opc (· = [])

/-- The twelve opcodes of 30_encoding.md R71, by format. -/
def opcodesD : List Byte := [0x01#8, 0x02#8, 0x03#8, 0x04#8, 0x05#8, 0x10#8]
def opcodesN : List Byte := [0x11#8, 0x12#8, 0x14#8, 0x1F#8]
def opcodes : List Byte := opcodesD ++ opcodesN ++ [0x06#8, 0x13#8]

/-- R69 (2): the total length of `opc :: tail` is its format's. -/
def fits (opc : Byte) (tail : Bytes) : Prop :=
  (opc ∈ opcodesD → fitsD tail) ∧ (opc ∈ opcodesN → tail = []) ∧ (opc = 0x06#8 → fitsID tail) ∧
    (opc = 0x13#8 → ∃ key, tail = [key])

/-- The DATA operand of a message that fits; `[]` for formats without one. -/
def dataOperand (opc : Byte) (tail : Bytes) : Bytes :=
  if opc ∈ opcodesD then tail.drop 2 else if opc = 0x06#8 then tail.drop 3 else []

/-- The bytes of `s` that no escape precedes, in the pairing of `unstuff`: what a receiver that tracks escape pairs sees as
unescaped. -/
def unescaped : Bytes → Bytes
  | [] => []
  | [b] => if b = 0x7E#8 then [] else [b]
  | b :: x :: s => if b = 0x7E#8 then unescaped s else b :: unescaped (x :: s)

/-- No escape dangles at the end of `s`: every escape, in the pairing of `unstuff`, has a byte after it. -/
def danglingFree : Bytes → Bool
  | [] => true
  | [b] => b != 0x7E#8
  | b :: x :: s => if b = 0x7E#8 then danglingFree s else danglingFree (x :: s)

/-- How many bytes of `s` are escapes, in the pairing of `unstuff`. -/
def escapeCount : Bytes → Nat
  | [] => 0
  | [b] => if b = 0x7E#8 then 1 else 0
  | b :: x :: s => if b = 0x7E#8 then 1 + escapeCount s else escapeCount (x :: s)

/-- The source's own stuffing procedure (41_codec.md R110): the indices below `i` are still to be visited, from the end toward
the start, and an escape is inserted at the index of every reserved byte. -/
def stuffFromEnd : Nat → Bytes → Bytes
  | 0, s => s
  | i + 1, s => stuffFromEnd i (if (s[i]?).any isReserved then s.insertIdx i 0x7E#8 else s)

/-- A byte as a polynomial over GF(2), bit `i` the coefficient of `x^i`. -/
noncomputable def bytePoly (b : Byte) : Polynomial (ZMod 2) :=
  ∑ i ∈ Finset.range 8, if b.getLsbD i then Polynomial.X ^ i else 0

/-- A byte sequence as a polynomial over GF(2), its first byte the most significant. -/
noncomputable def bytesPoly (s : Bytes) : Polynomial (ZMod 2) :=
  s.foldl (fun p b => p * Polynomial.X ^ 8 + bytePoly b) 0

/-- `x^8 + x^2 + x + 1`. -/
noncomputable def crcModulus : Polynomial (ZMod 2) :=
  Polynomial.X ^ 8 + Polynomial.X ^ 2 + Polynomial.X + 1

/-- The four elements of 10_state.md R20 are the same in `s` and `t`. -/
def sameElements (s t : State) : Prop :=
  t.pstate = s.pstate ∧ t.pbuf = s.pbuf ∧ t.table = s.table ∧ t.cq = s.cq

/-- The eight commands that leave the state elements unchanged (20_memory.md R46). -/
def isPure : Instr → Prop
  | .crc8 _ => True
  | .verify _ => True
  | .stuff _ => True
  | .unstuff _ => True
  | .classify _ => True
  | .build _ _ => True
  | .push _ => False
  | .drain => False
  | .keys => True
  | .fetch _ => False
  | .status => True
  | .reset => False

/-- A message of format RD: ACK, a 16-bit big-endian LEN and exactly LEN bytes (30_encoding.md R70). -/
def shapeRD (r : Bytes) : Prop :=
  ∃ hi lo data, r = 0x00#8 :: hi :: lo :: data ∧ data.length = hi.toNat * 256 + lo.toNat

/-- The state after the commands `is`, one after another; `none` if one of them does not complete. -/
def afterAll : List Instr → State → Option State
  | [], s => some s
  | i :: is, s =>
    match exec i s with
    | .next t => afterAll is t
    | .fault _ => none
    | .refused _ => none

/-- The ACK response format of each command (30_encoding.md R71, R70), with every length field exact. `s` is the state the
command found. -/
def ackShape (s : State) : Instr → Bytes → Prop
  | .crc8 _, r => ∃ b, r = [0x00#8, b]
  | .verify _, r => r = [0x00#8, 0x00#8] ∨ r = [0x00#8, 0x08#8]
  | .stuff _, r => shapeRD r
  | .unstuff _, r => shapeRD r
  | .classify _, r => r = [0x00#8, 0x00#8] ∨ r = [0x00#8, 0x01#8]
  | .build _ _, r => shapeRD r
  | .push _, r => r = [0x00#8]
  | .drain, r => r = [0x00#8]
  | .keys, r => r.head? = some 0x00#8 ∧ r.length = 33
  | .fetch _, r => ∃ st hi lo data, r = 0x00#8 :: st :: hi :: lo :: data ∧
      data.length = hi.toNat * 256 + lo.toNat ∧ (st = 0x00#8 ∨ ((st = 0x01#8 ∨ st = 0x08#8) ∧ data = []))
  | .status, r => ∃ ps p₁ p₀ q₁ q₀, r = [0x00#8, ps, p₁, p₀, q₁, q₀] ∧
      s.pbuf.length = p₁.toNat * 256 + p₀.toNat ∧ s.cq.length = q₁.toNat * 256 + q₀.toNat
  | .reset, r => r = [0x00#8]

end Sys2Proof.Claims

open Sys2Proof Sys2Proof.Machine Sys2Proof.Claims

/-! ### Wire constants, reset and the port -/

/-- R60 and R61: the seven wire constants, the checksum parameters, and membership in `IDS` and `RES`. -/
def Obligations.WireConstantsAndByteSets : Prop :=
  wire.init = 0xFF#8 ∧ wire.comm = 0xAA#8 ∧ wire.heartbeat = 0xBB#8 ∧ wire.sensor = 0xCC#8 ∧
  wire.term = 0xEE#8 ∧ wire.esc = 0x7E#8 ∧ wire.reserved = 0xDE#8 ∧ wire.crcPoly = 0x07#8 ∧ wire.crcInit = 0x00#8 ∧
  (∀ b : Byte, isIdentity b = true ↔ b = 0xFF#8 ∨ b = 0xAA#8 ∨ b = 0xBB#8 ∨ b = 0xCC#8) ∧
  (∀ b : Byte, isReserved b = true ↔ isIdentity b = true ∨ b = 0xEE#8 ∨ b = 0x7E#8) ∧
  isReserved 0xDE#8 = false ∧ stuff [0xDE#8] = [0xDE#8]

/-- R29: every state element at its reset value, whatever the build's parameters. -/
def Obligations.ResetValues : Prop :=
  (∀ p : Params, (State.resetWith p).pstate = .empty ∧ (State.resetWith p).pbuf = [] ∧
    (∀ k : Key, (State.resetWith p).table.get k = none) ∧ (State.resetWith p).cq = []) ∧
  State.reset = State.resetWith ⟨20, 256, 100, 512, 512⟩

/-- The invariants of R21 to R25 hold right after reset, in every build whose stores are large enough for its rules (R5, log 20),
the default build among them. -/
def Obligations.InvariantAtReset : Prop :=
  (∀ p : Params, p.roomy → (State.resetWith p).Inv) ∧ State.reset.Inv

/-- The invariants of R21, R22, R24 and R25 are kept by every step, from every state that meets them. -/
def Obligations.InvariantKeptByEveryStep : Prop :=
  ∀ s t : State, s.Inv → step s = .next t → t.Inv

/-- R190: the reset input gives every element its reset value and sends no response; RESET has the same effect on the
elements and sends one. The parameters and the events still waiting at the port stay (log 5, the model's choice). -/
def Obligations.ResetInputAndResetCommandAgree : Prop :=
  ∀ (s : State) (rest : List PortEvent), s.inbox = .resetInput :: rest →
    ∃ t, step s = .next t ∧ t.pstate = .empty ∧ t.pbuf = [] ∧ (∀ k, t.table.get k = none) ∧ t.cq = [] ∧
      t.params = s.params ∧ t.inbox = rest ∧ t.outbox = s.outbox ∧
      exec .reset { s with inbox := rest } = .next (answered t [0x00#8])

/-- The interface's central fact: when the next event is a message that decodes to `i`, the step is `exec i` on the state
with that event taken; and `decode` gives only commands a message can carry. -/
def Obligations.StepRunsDecodedCommand : Prop :=
  ∀ (s : State) (m : Bytes) (rest : List PortEvent) (i : Instr),
    s.inbox = .command m :: rest → decode m = .ok i →
      step s = exec i { s with inbox := rest } ∧ i.encodable = true

/-- With nothing at the port a step changes nothing (log 3, the model's choice; R175: "It does nothing on its own"). -/
def Obligations.IdlePortStepChangesNothing : Prop := ∀ s : State, s.inbox = [] → step s = .next s

/-- R174, R9, R170: every step answers a next state; a command message is taken, gets exactly one response, whose code is one
of the six, and leaves the parameters and the later events alone. That a step with an idle port answers a next state is the
model's choice (log 3). -/
def Obligations.EveryCommandGetsOneResponse : Prop :=
  (∀ s : State, ∃ t, step s = .next t) ∧
  ∀ (s t : State) (m : Bytes) (rest : List PortEvent), s.inbox = .command m :: rest → step s = .next t →
    ∃ rc body, t.outbox = s.outbox ++ [rc :: body] ∧ rc.toNat ≤ 5 ∧ (rc ≠ 0x00#8 → body = []) ∧
      t.inbox = rest ∧ t.params = s.params

/-- R174: no run of any length, from any state, stops. -/
def Obligations.NoRunStops : Prop := ∀ s : State, neverStops s

/-- R171: a command answered with anything but ACK changes no state element. -/
def Obligations.ErrorResponseChangesNoState : Prop :=
  ∀ (s t : State) (m : Bytes) (rest : List PortEvent) (rc : Byte) (body : Bytes),
    s.inbox = .command m :: rest → step s = .next t → t.outbox = s.outbox ++ [rc :: body] → rc ≠ 0x00#8 →
      t = answered { s with inbox := rest } [rc]

/-- R172 (with R69 and R170): the first error in the order is the one reported, for any message in any state. -/
def Obligations.ErrorPriority : Prop :=
  ∀ (s : State) (rest : List PortEvent) (m : Bytes), s.inbox = .command m :: rest →
    (m = [] → step s = .next (answered { s with inbox := rest } [0x02#8])) ∧
    ∀ (opc : Byte) (tail : Bytes), m = opc :: tail →
      (opc ∉ opcodes → step s = .next (answered { s with inbox := rest } [0x01#8])) ∧
      (opc ∈ opcodes → ¬ fits opc tail → step s = .next (answered { s with inbox := rest } [0x02#8])) ∧
      (opc ∈ opcodes → fits opc tail → s.params.maxCandLen < (dataOperand opc tail).length →
        step s = .next (answered { s with inbox := rest } [0x03#8])) ∧
      (opc ∈ opcodes → fits opc tail → (dataOperand opc tail).length ≤ s.params.maxCandLen →
        (opc = 0x06#8 ∧ (tail.head?.any isIdentity) = false →
          step s = .next (answered { s with inbox := rest } [0x04#8])) ∧
        (opc = 0x10#8 ∧ s.cq.length = s.params.maxCands →
          step s = .next (answered { s with inbox := rest } [0x05#8])) ∧
        (¬ (opc = 0x06#8 ∧ (tail.head?.any isIdentity) = false) ∧ ¬ (opc = 0x10#8 ∧ s.cq.length = s.params.maxCands) →
          ∃ t body, step s = .next t ∧ t.outbox = s.outbox ++ [0x00#8 :: body]))

/-- R72 and R162: every opcode value outside the map gets ERR_OPCODE whatever follows it, an empty message ERR_FORMAT, and
neither changes state. -/
def Obligations.IllegalOpcodeAnswered : Prop :=
  (∀ (s : State) (opc : Byte) (tail : Bytes) (rest : List PortEvent),
    (opc.toNat = 0x00 ∨ (0x07 ≤ opc.toNat ∧ opc.toNat ≤ 0x0F) ∨ (0x15 ≤ opc.toNat ∧ opc.toNat ≤ 0x1E) ∨
      (0x20 ≤ opc.toNat ∧ opc.toNat ≤ 0xFF)) →
    s.inbox = .command (opc :: tail) :: rest → step s = .next (answered { s with inbox := rest } [0x01#8])) ∧
  (∀ (s : State) (rest : List PortEvent), s.inbox = .command [] :: rest →
    step s = .next (answered { s with inbox := rest } [0x02#8])) ∧
  decode [0x00#8] = .error .illegalOpcode ∧ decode [0x07#8, 0x00#8, 0x00#8] = .error .illegalOpcode

/-! ### Encoding -/

/-- Decoding the encoding of any command a message can carry gives it back, with every operand; every command that passes the
operand checks of a legal build is one. -/
def Obligations.DecodeOfEncode : Prop :=
  (∀ i : Instr, i.encodable = true → decode (encode i) = .ok i) ∧
  (∀ (p : Params) (i : Instr), p.ok → i.wf p = true → i.encodable = true)

/-- Each message has one meaning: a message that decodes to `i` is the encoding of `i`. -/
def Obligations.EncodeOfDecode : Prop :=
  ∀ (m : Bytes) (i : Instr), decode m = .ok i → encode i = m

/-- One message of every format, written out from R68 and R71, decodes to its command. -/
def Obligations.SampleMessagesDecode : Prop :=
  decode [0x01#8, 0x00#8, 0x02#8, 0xFF#8, 0x01#8] = .ok (.crc8 [0xFF#8, 0x01#8]) ∧
  decode [0x02#8, 0x00#8, 0x00#8] = .ok (.verify []) ∧
  decode [0x03#8, 0x00#8, 0x01#8, 0xAA#8] = .ok (.stuff [0xAA#8]) ∧
  decode [0x04#8, 0x00#8, 0x01#8, 0x7E#8] = .ok (.unstuff [0x7E#8]) ∧
  decode [0x05#8, 0x00#8, 0x01#8, 0xFF#8] = .ok (.classify [0xFF#8]) ∧
  decode [0x06#8, 0xAA#8, 0x00#8, 0x02#8, 0x01#8, 0x30#8] = .ok (.build 0xAA#8 [0x01#8, 0x30#8]) ∧
  decode [0x10#8, 0x00#8, 0x03#8, 0xFF#8, 0x01#8, 0x01#8] = .ok (.push [0xFF#8, 0x01#8, 0x01#8]) ∧
  decode [0x11#8] = .ok .drain ∧ decode [0x12#8] = .ok .keys ∧ decode [0x13#8, 0xDE#8] = .ok (.fetch 0xDE#8) ∧
  decode [0x14#8] = .ok .status ∧ decode [0x1F#8] = .ok .reset

/-- R69, R70, R71: in a legal build with `MAX_CANDS` within 16 bits (log 9), every command that passes its operand checks
is answered in its own response format, every length field exact; only PUSH can still be refused, with ERR_QUEUE_FULL. -/
def Obligations.ResponseFormats : Prop :=
  ∀ (s t : State) (i : Instr), s.params.ok → s.params.maxCands ≤ 65535 → s.Inv → i.wf s.params = true →
    exec i s = .next t → ∃ r, t.outbox = s.outbox ++ [r] ∧ (ackShape s i r ∨ ((∃ data, i = .push data) ∧ r = [0x05#8]))

/-! ### Checksum -/

/-- R104: the five laws of `crc8`. -/
def Obligations.Crc8Laws : Prop :=
  crc8 [] = 0x00#8 ∧
  (∀ s t : Bytes, crc8 (s ++ t) = crc8From (crc8 s) t) ∧
  (∀ s : Bytes, crc8 (s ++ [crc8 s]) = 0x00#8) ∧
  (∀ n : Nat, crc8 (List.replicate n 0x00#8) = 0x00#8) ∧
  (∀ b : Byte, bytePoly (crc8 [b]) = (bytePoly b * Polynomial.X ^ 8).modByMonic crcModulus)

/-- `crc8` is the remainder of the whole message, times `x^8`, by `x^8 + x^2 + x + 1` over GF(2): R100 for every sequence. -/
def Obligations.Crc8IsPolynomialRemainder : Prop :=
  ∀ s : Bytes, bytePoly (crc8 s) = (bytesPoly s * Polynomial.X ^ 8).modByMonic crcModulus

/-- R102: CRC8. -/
def Obligations.Crc8Command : Prop :=
  (∀ (s : State) (data : Bytes), data.length ≤ s.params.maxCandLen →
    exec (.crc8 data) s = .next (answered s [0x00#8, crc8 data])) ∧
  (∀ (s : State) (data : Bytes), s.params.maxCandLen < data.length →
    exec (.crc8 data) s = .next (answered s [0x03#8])) ∧
  formatD 0x01#8 .crc8 ∧
  crc8 [] = 0x00#8 ∧ (∀ n : Nat, crc8 (List.replicate n 0x00#8) = 0x00#8) ∧
  (∀ data : Bytes, crc8 (data ++ [crc8 data]) = 0x00#8) ∧
  crc8 [0xFF#8, 0x01#8, 0x01#8, 0x00#8, 0x05#8] = 0x5F#8

/-- R101: what `verify` compares, and that its short branch never runs for a complete candidate. -/
def Obligations.VerifyComparesUnstuffedChecksum : Prop :=
  ∀ f : Bytes,
    (verify f = .ok ∨ verify f = .checksumFailed) ∧
    ((unstuff f).length < 2 → verify f = .checksumFailed) ∧
    (∀ (span : Bytes) (chk last : Byte), unstuff f = span ++ [chk, last] → (verify f = .ok ↔ crc8 span = chk)) ∧
    (isComplete f = true → 3 ≤ (unstuff f).length)

/-- R103: VERIFY, with its corner cases (a) to (d). -/
def Obligations.VerifyCommand : Prop :=
  (∀ (s : State) (data : Bytes), data.length ≤ s.params.maxCandLen →
    exec (.verify data) s = .next (answered s [0x00#8, if verify data = .ok then 0x00#8 else 0x08#8])) ∧
  (∀ (s : State) (data : Bytes), s.params.maxCandLen < data.length →
    exec (.verify data) s = .next (answered s [0x03#8])) ∧
  formatD 0x02#8 .verify ∧
  verify [] = .checksumFailed ∧ (∀ b : Byte, verify [b] = .checksumFailed) ∧
  (∀ x : Byte, verify [0x7E#8, x] = .checksumFailed) ∧
  (∀ (pre : Bytes) (chk : Byte), danglingFree pre = true →
    (verify (pre ++ [0x7E#8, chk, 0xEE#8]) = .ok ↔ crc8 (unstuff pre) = chk)) ∧
  (∀ (pre p : Bytes) (b : Byte), danglingFree pre = true → unstuff pre = p ++ [b] →
    (verify (pre ++ [0x7E#8, 0xEE#8]) = .ok ↔ crc8 p = b)) ∧
  (∀ (pre p : Bytes) (last : Byte), danglingFree pre = true → unstuff pre = p ++ [crc8 p] → last ≠ 0x7E#8 →
    verify (pre ++ [last]) = .ok) ∧
  verify [0xFF#8, 0x01#8, 0x01#8, 0x00#8, 0x05#8, 0x5F#8, 0xEE#8] = .ok ∧
  verify [0xFF#8, 0x01#8, 0x01#8, 0x00#8, 0x05#8, 0x5E#8, 0xEE#8] = .checksumFailed

/-! ### Codec -/

/-- R110: the front-to-back map, its length, and that it is the source's own end-to-start procedure. -/
def Obligations.StuffEscapesEveryReservedByte : Prop :=
  stuff [] = [] ∧
  (∀ (b : Byte) (s : Bytes), stuff (b :: s) = (if isReserved b then [0x7E#8, b] else [b]) ++ stuff s) ∧
  (∀ s : Bytes, (stuff s).length = s.length + s.countP isReserved) ∧
  (∀ s : Bytes, stuffFromEnd s.length s = stuff s)

/-- R111: one equation per case of the scan, the dangling escape among them, and the length of the result. -/
def Obligations.UnstuffKeepsTheByteAfterAnEscape : Prop :=
  unstuff [] = [] ∧ unstuff [0x7E#8] = [] ∧
  (∀ (x : Byte) (s : Bytes), unstuff (0x7E#8 :: x :: s) = x :: unstuff s) ∧
  (∀ (b : Byte) (s : Bytes), b ≠ 0x7E#8 → unstuff (b :: s) = b :: unstuff s) ∧
  (∀ s : Bytes, (unstuff s).length + escapeCount s = s.length) ∧
  unstuff [0x7E#8, 0x41#8] = [0x41#8]

/-- R116(a) and (b): unstuffing undoes stuffing for every sequence, and stuffing does not undo unstuffing. -/
def Obligations.UnstuffOfStuff : Prop :=
  (∀ p : Bytes, unstuff (stuff p) = p) ∧ stuff (unstuff [0x7E#8, 0x41#8]) ≠ [0x7E#8, 0x41#8]

/-- R116(c): a built frame unstuffs to its identity, body, checksum and terminator, and verifies. -/
def Obligations.BuiltFrameUnstuffsAndVerifies : Prop :=
  ∀ (id : Byte) (body : Bytes), isIdentity id = true →
    unstuff (build id body) = [id] ++ body ++ [crc8 ([id] ++ body), 0xEE#8] ∧ verify (build id body) = .ok

/-- R116(d): when a built frame is complete. -/
def Obligations.BuiltFrameCompleteness : Prop :=
  ∀ (id : Byte) (body : Bytes), isIdentity id = true →
    (isComplete (build id body) = true ↔ 3 ≤ (stuff (body ++ [crc8 ([id] ++ body)])).length) ∧
    (2 ≤ body.length → isComplete (build id body) = true) ∧
    (body = [] → isComplete (build id body) = false) ∧
    (∀ b : Byte, body = [b] →
      (isComplete (build id body) = true ↔ isReserved b = true ∨ isReserved (crc8 [id, b]) = true))

/-- R116(e): no reserved byte of a stuffed region is unescaped, and the only unescaped terminator of a built frame is its
last byte. -/
def Obligations.OnlyTheLastTerminatorIsUnescaped : Prop :=
  (∀ (s : Bytes) (b : Byte), b ∈ unescaped (stuff s) → isReserved b = false) ∧
  (∀ (id : Byte) (body : Bytes), isIdentity id = true →
    ∃ pre, unescaped (build id body) = pre ++ [0xEE#8] ∧ 0xEE#8 ∉ pre)

/-- R65: on the wire, a body of `m` bytes with `r` reserved bytes among body and checksum takes `m + r + 3` bytes. -/
def Obligations.BuiltFrameLength : Prop :=
  ∀ (id : Byte) (body : Bytes),
    (build id body).length = body.length + (body ++ [crc8 ([id] ++ body)]).countP isReserved + 3

/-- R113: STUFF. -/
def Obligations.StuffCommand : Prop :=
  (∀ (s : State) (data : Bytes), data.length ≤ s.params.maxCandLen →
    exec (.stuff data) s = .next (answered s ([0x00#8] ++ lenField (stuff data).length ++ stuff data))) ∧
  (∀ (s : State) (data : Bytes), s.params.maxCandLen < data.length →
    exec (.stuff data) s = .next (answered s [0x03#8])) ∧
  formatD 0x03#8 .stuff ∧
  stuff [] = [] ∧ (∀ data : Bytes, (stuff data).length ≤ 2 * data.length) ∧
  (∀ data : Bytes, (∀ b ∈ data, isReserved b = true) → (stuff data).length = 2 * data.length) ∧
  stuff [0xDE#8] = [0xDE#8] ∧
  (∀ (b : Byte) (data : Bytes), isIdentity b = true → stuff (b :: data) = 0x7E#8 :: b :: stuff data) ∧
  stuff [0x01#8, 0xAA#8, 0x7E#8, 0xDE#8] = [0x01#8, 0x7E#8, 0xAA#8, 0x7E#8, 0x7E#8, 0xDE#8]

/-- R114: UNSTUFF. -/
def Obligations.UnstuffCommand : Prop :=
  (∀ (s : State) (data : Bytes), data.length ≤ s.params.maxCandLen →
    exec (.unstuff data) s = .next (answered s ([0x00#8] ++ lenField (unstuff data).length ++ unstuff data))) ∧
  (∀ (s : State) (data : Bytes), s.params.maxCandLen < data.length →
    exec (.unstuff data) s = .next (answered s [0x03#8])) ∧
  formatD 0x04#8 .unstuff ∧
  unstuff [0x7E#8] = [] ∧ unstuff [0x7E#8, 0x7E#8, 0x7E#8] = [0x7E#8] ∧ unstuff [0x7E#8, 0xEE#8] = [0xEE#8] ∧
  unstuff [0x7E#8, 0x41#8] = [0x41#8] ∧
  unstuff [0x01#8, 0x7E#8, 0xAA#8, 0x7E#8, 0x7E#8, 0xDE#8] = [0x01#8, 0xAA#8, 0x7E#8, 0xDE#8]

/-- R115 (with R112): BUILD, with its corner cases (a) to (d). -/
def Obligations.BuildCommand : Prop :=
  (∀ (s : State) (idb : Byte) (data : Bytes), data.length ≤ s.params.maxCandLen → isIdentity idb = true →
    exec (.build idb data) s = .next (answered s ([0x00#8] ++ lenField (build idb data).length ++ build idb data))) ∧
  (∀ (s : State) (idb : Byte) (data : Bytes), s.params.maxCandLen < data.length →
    exec (.build idb data) s = .next (answered s [0x03#8])) ∧
  (∀ (s : State) (idb : Byte) (data : Bytes), data.length ≤ s.params.maxCandLen → isIdentity idb = false →
    exec (.build idb data) s = .next (answered s [0x04#8])) ∧
  (∀ (idb hi lo : Byte) (data : Bytes), data.length = hi.toNat * 256 + lo.toNat →
    decode (0x06#8 :: idb :: hi :: lo :: data) = .ok (.build idb data)) ∧
  errFormatUnless 0x06#8 fitsID ∧
  (∀ (idb : Byte) (body : Bytes), build idb body = [idb] ++ stuff (body ++ [crc8 ([idb] ++ body)]) ++ [0xEE#8]) ∧
  (∀ idb : Byte, ((build idb []).length = 3 ∨ (build idb []).length = 4) ∧ isComplete (build idb []) = false) ∧
  (∀ (idb : Byte) (body : Bytes), isReserved (crc8 ([idb] ++ body)) = true →
    ∃ pre, build idb body = pre ++ [0x7E#8, crc8 ([idb] ++ body), 0xEE#8]) ∧
  (∀ (idb : Byte) (body : Bytes), (build idb body).length ≤ 2 * (body.length + 1) + 2) ∧
  build 0xFF#8 [0x01#8, 0x01#8, 0x00#8, 0x05#8] = [0xFF#8, 0x01#8, 0x01#8, 0x00#8, 0x05#8, 0x5F#8, 0xEE#8]

/-! ### Classifier -/

/-- R120: when a candidate is complete. -/
def Obligations.CompleteCandidates : Prop :=
  ∀ c : Bytes, isComplete c = true ↔
    4 < c.length ∧ (∃ b, c.head? = some b ∧ (b = 0xFF#8 ∨ b = 0xAA#8 ∨ b = 0xBB#8 ∨ b = 0xCC#8)) ∧
      c.getLast? = some 0xEE#8

/-- R122: the four laws of the classifier. -/
def Obligations.ClassifierLaws : Prop :=
  (∀ c : Bytes, c.length ≤ 4 → isComplete c = false) ∧
  (∀ c : Bytes, isComplete c = true → 3 ≤ (unstuff c).length ∧ (unstuff c).head? = c.head?) ∧
  (∀ c : Bytes, isComplete c = true → (unstuff c).getLast? = some 0xEE#8) ∧
  (∀ p c p' c' : Bytes, p ++ c = p' ++ c' → isComplete (p ++ c) = isComplete (p' ++ c')) ∧
  (∃ p c : Bytes, isComplete p = false ∧ isComplete c = false ∧ isComplete (p ++ c) = true)

/-- R121: CLASSIFY. -/
def Obligations.ClassifyCommand : Prop :=
  (∀ (s : State) (data : Bytes), data.length ≤ s.params.maxCandLen →
    exec (.classify data) s = .next (answered s [0x00#8, if isComplete data then 0x01#8 else 0x00#8])) ∧
  (∀ (s : State) (data : Bytes), s.params.maxCandLen < data.length →
    exec (.classify data) s = .next (answered s [0x03#8])) ∧
  formatD 0x05#8 .classify ∧
  (∀ data : Bytes, data.length ≤ 4 → isComplete data = false) ∧
  isComplete [0x7E#8, 0xFF#8, 0x01#8, 0x02#8, 0xEE#8] = false ∧
  isComplete [0xFF#8, 0x01#8, 0x02#8, 0x7E#8, 0xEE#8] = true ∧
  (∀ data : Bytes, isComplete (0xDE#8 :: data) = false) ∧
  isComplete [0xFF#8, 0x01#8, 0x02#8, 0x03#8, 0x0A#8, 0xEE#8] = true ∧ isComplete [0xFF#8, 0x01#8, 0x01#8] = false

/-! ### Reassembly -/

/-- R131: from EMPTY the first fragment is kept whatever its length, inside any DRAIN and as the outcome of a DRAIN of it
alone; an empty fragment gives PENDING. -/
def Obligations.FirstFragmentIsKept : Prop :=
  (∀ (lossBound : Nat) (c : Bytes) (cy : Cycle), isComplete c = false → cy.pstate = .empty →
    process lossBound c cy = .ok { cy with pstate := .pending, pbuf := c }) ∧
  (∀ (s : State) (c : Bytes), isComplete c = false → s.pstate = .empty → s.cq = [c] →
    exec .drain s = .next (answered { s with pstate := .pending, pbuf := c, cq := [] } [0x00#8]))

/-- R133 (with R132): a completing fragment empties the slot and the rebuilt frame is decoded and filed through the DRAIN's
own seen set, whatever its length; a rebuilt frame that decode drops files nothing. -/
def Obligations.RebuiltFrameIsFiled : Prop :=
  (∀ (lossBound : Nat) (c : Bytes) (cy : Cycle), isComplete c = false → cy.pstate = .pending →
    isComplete (cy.pbuf ++ c) = true →
    (∀ k e, decodeFrame (cy.pbuf ++ c) = .entry k e →
      process lossBound c cy = .ok (file k e { cy with pstate := .empty, pbuf := [] })) ∧
    (decodeFrame (cy.pbuf ++ c) = .drop → process lossBound c cy = .ok { cy with pstate := .empty, pbuf := [] }) ∧
    decodeFrame (cy.pbuf ++ c) ≠ .unrecognized) ∧
  (∀ (s : State) (c : Bytes), isComplete c = false → s.pstate = .pending → s.cq = [c] →
    isComplete (s.pbuf ++ c) = true →
    (∀ k e, decodeFrame (s.pbuf ++ c) = .entry k e →
      exec .drain s = .next (answered
        { s with pstate := .empty, pbuf := [], table := s.table.set k e, cq := [] } [0x00#8])) ∧
    (decodeFrame (s.pbuf ++ c) = .drop →
      exec .drain s = .next (answered { s with pstate := .empty, pbuf := [], cq := [] } [0x00#8])))

/-- R134: a concatenation that stays incomplete is kept up to LOSS_BOUND bytes and discarded beyond, silently. -/
def Obligations.LossBoundDiscards : Prop :=
  (∀ (lossBound : Nat) (c : Bytes) (cy : Cycle), isComplete c = false → cy.pstate = .pending →
    isComplete (cy.pbuf ++ c) = false →
    (lossBound < (cy.pbuf ++ c).length → process lossBound c cy = .ok { cy with pstate := .empty, pbuf := [] }) ∧
    ((cy.pbuf ++ c).length ≤ lossBound → process lossBound c cy = .ok { cy with pbuf := cy.pbuf ++ c })) ∧
  (∀ (s : State) (c : Bytes), isComplete c = false → s.pstate = .pending → s.cq = [c] →
    isComplete (s.pbuf ++ c) = false →
    (s.params.lossBound < (s.pbuf ++ c).length →
      exec .drain s = .next (answered { s with pstate := .empty, pbuf := [], cq := [] } [0x00#8])) ∧
    ((s.pbuf ++ c).length ≤ s.params.lossBound →
      exec .drain s = .next (answered { s with pbuf := s.pbuf ++ c, cq := [] } [0x00#8])))

/-- R135(d): a frame in two parts, each drained in a cycle of its own, is filed as the whole frame would be. -/
def Obligations.TwoPartReassembly : Prop :=
  ∀ (s : State) (a b : Bytes), s.pstate = .empty → s.cq = [a] → isComplete a = false → isComplete b = false →
    isComplete (a ++ b) = true → b.length ≤ s.params.maxCandLen → s.params.maxCands ≠ 0 →
    ∃ t₁ t₂ t₃, exec .drain s = .next t₁ ∧ exec (.push b) t₁ = .next t₂ ∧ exec .drain t₂ = .next t₃ ∧
      t₃.pstate = .empty ∧ t₃.pbuf = [] ∧ t₃.cq = [] ∧
      (∀ k e, decodeFrame (a ++ b) = .entry k e → t₃.table = s.table.set k e) ∧
      (decodeFrame (a ++ b) = .drop → t₃.table = s.table)

/-- R135(b): a run of incomplete candidates, none completing the concatenation, empties the slot as soon as the total passes
LOSS_BOUND, and files nothing. The run is the queue read newest-first. -/
def Obligations.NeverCompletingRunEmptiesTheSlot : Prop :=
  ∀ (s : State) (run : List Bytes) (last : Bytes), s.pstate = .pending → s.cq.reverse = run ++ [last] →
    (∀ c ∈ s.cq, isComplete c = false) →
    (∀ n, isComplete (s.pbuf ++ (s.cq.reverse.take n).flatten) = false) →
    (s.pbuf ++ run.flatten).length ≤ s.params.lossBound →
    s.params.lossBound < (s.pbuf ++ run.flatten ++ last).length →
    exec .drain s = .next (answered { s with pstate := .empty, pbuf := [], cq := [] } [0x00#8])

/-- R192 (R135(e), R145): two incomplete candidates of one cycle are joined newest before oldest, after what was pending. -/
def Obligations.NewestFirstConcatenation : Prop :=
  (∀ (s : State) (c₀ c₁ : Bytes), s.pstate = .empty → s.cq = [c₀, c₁] → isComplete c₀ = false → isComplete c₁ = false →
    isComplete (c₁ ++ c₀) = false → (c₁ ++ c₀).length ≤ s.params.lossBound →
    exec .drain s = .next (answered { s with pstate := .pending, pbuf := c₁ ++ c₀, cq := [] } [0x00#8])) ∧
  (∀ (s : State) (c₀ c₁ : Bytes), s.pstate = .pending → s.cq = [c₀, c₁] → isComplete c₀ = false → isComplete c₁ = false →
    isComplete (s.pbuf ++ c₁) = false → isComplete (s.pbuf ++ c₁ ++ c₀) = false →
    (s.pbuf ++ c₁ ++ c₀).length ≤ s.params.lossBound →
    exec .drain s = .next (answered { s with pbuf := s.pbuf ++ c₁ ++ c₀, cq := [] } [0x00#8]))

/-! ### Demultiplexer -/

/-- R140, R141, R142: `decode` of a complete frame, arm by arm, with the Entry its checksum gives it; a dropped frame
files nothing, marks no key seen and leaves the pending slot alone. -/
def Obligations.FrameDecoding : Prop :=
  ∀ (f : Bytes) (id : Byte), isComplete f = true → f.head? = some id →
    let u := unstuff f
    let n := u.length
    let e := fun pl => if verify f = .ok then (⟨.ok, some pl⟩ : Entry) else ⟨.checksumFailed, none⟩
    (id = 0xFF#8 → decodeFrame f = .entry 0xFF#8 (e (slice 0 (n - 2) u))) ∧
    (id = 0xBB#8 → decodeFrame f = .entry 0xBB#8 (e (slice 2 (n - 2) u))) ∧
    (id = 0xAA#8 ∨ id = 0xCC#8 →
      (n < 5 → decodeFrame f = .drop) ∧
      (∀ k, 5 ≤ n → u[2]? = some k →
        (k = 0xDE#8 → decodeFrame f = .drop) ∧ (k ≠ 0xDE#8 → decodeFrame f = .entry k (e (slice 3 (n - 2) u))))) ∧
    (decodeFrame f = .drop → ∀ lossBound cy, process lossBound f cy = .ok cy) ∧
    decodeFrame f ≠ .unrecognized

/-- R143: filing under the seen set. -/
def Obligations.FilingUnderTheSeenSet : Prop :=
  ∀ (k : Key) (e : Entry) (cy : Cycle),
    (k ∈ cy.seen → file k e cy = cy) ∧
    (k ∉ cy.seen →
      (∀ k', k' ∈ (file k e cy).seen ↔ k' = k ∨ k' ∈ cy.seen) ∧
      (∀ k', (file k e cy).table.get k' = if k' = k then some e else cy.table.get k') ∧
      (file k e cy).pstate = cy.pstate ∧ (file k e cy).pbuf = cy.pbuf)

/-- R146: PUSH. -/
def Obligations.PushCommand : Prop :=
  (∀ (s : State) (data : Bytes), data.length ≤ s.params.maxCandLen → s.cq.length ≠ s.params.maxCands →
    exec (.push data) s = .next (answered { s with cq := s.cq ++ [data] } [0x00#8])) ∧
  (∀ (s : State) (data : Bytes), data.length ≤ s.params.maxCandLen → s.cq.length = s.params.maxCands →
    exec (.push data) s = .next (answered s [0x05#8])) ∧
  (∀ (s : State) (data : Bytes), s.params.maxCandLen < data.length →
    exec (.push data) s = .next (answered s [0x03#8])) ∧
  formatD 0x10#8 .push ∧
  (afterAll [.push [0xFF#8, 0x01#8, 0x01#8], .status] State.reset).map State.outbox =
    some [[0x00#8], [0x00#8, 0x00#8, 0x00#8, 0x00#8, 0x00#8, 0x01#8]]

/-- R147 (with R144 and R145): DRAIN completes in every state; it processes the queue from the newest candidate to the oldest
under one seen set that starts empty, empties CQ, and answers ACK. An empty queue changes nothing else. -/
def Obligations.DrainCommand : Prop :=
  (∀ s : State, ∃ cy : Cycle,
    s.cq.foldr (fun c (acc : Except Fault Cycle) => acc.bind (process s.params.lossBound c))
        (.ok ⟨s.pstate, s.pbuf, s.table, []⟩) = .ok cy ∧
    exec .drain s = .next (answered
      { s with pstate := cy.pstate, pbuf := cy.pbuf, table := cy.table, cq := [] } [0x00#8])) ∧
  (∀ s : State, s.cq = [] → exec .drain s = .next (answered s [0x00#8])) ∧
  (∀ (s : State) (c₀ c₁ : Bytes) (k : Key) (e₀ e₁ : Entry), s.cq = [c₀, c₁] → isComplete c₀ = true →
    isComplete c₁ = true → decodeFrame c₀ = .entry k e₀ → decodeFrame c₁ = .entry k e₁ →
    exec .drain s = .next (answered { s with table := s.table.set k e₁, cq := [] } [0x00#8])) ∧
  formatN 0x11#8 .drain ∧
  (afterAll [.push [0xAA#8, 0x01#8, 0x01#8, 0x00#8, 0x30#8, 0xC3#8, 0xEE#8], .drain] State.reset).map
    (fun t => t.table.get 0x01#8) = some (some ⟨.ok, some [0x00#8, 0x30#8]⟩)

/-- R150(a), with R143 and R145: in a cycle whose candidates newer than `c` are complete and do not file under the key of the
complete candidate `c`, the Entry of `c` is the one at its key after the DRAIN, whatever is older. -/
def Obligations.LatestWins : Prop :=
  ∀ (s : State) (older newer : List Bytes) (c : Bytes) (k : Key) (e : Entry), s.cq = older ++ [c] ++ newer →
    isComplete c = true → decodeFrame c = .entry k e →
    (∀ x ∈ newer, isComplete x = true ∧ ∀ e', decodeFrame x ≠ .entry k e') →
    ∃ t, exec .drain s = .next t ∧ t.table.get k = some e

/-- R144, R197: a cycle of complete candidates leaves the pending slot as it was, and leaves every key that none of them
decodes to as it was. -/
def Obligations.CompleteCandidatesLeaveThePendingSlot : Prop :=
  ∀ s : State, (∀ c ∈ s.cq, isComplete c = true) →
    ∃ t, exec .drain s = .next t ∧ t.pstate = s.pstate ∧ t.pbuf = s.pbuf ∧
      ∀ k, (∀ c ∈ s.cq, ∀ e, decodeFrame c ≠ .entry k e) → t.table.get k = s.table.get k

/-- R150(f): a DRAIN files at most `len(CQ)` Entries, at most one per key: the slots it changes are among that many keys. -/
def Obligations.DrainFilesAtMostTheQueue : Prop :=
  ∀ s t : State, exec .drain s = .next t →
    ∃ ks : List Key, ks.Nodup ∧ ks.length ≤ s.cq.length ∧ ∀ k, k ∉ ks → t.table.get k = s.table.get k

/-- R150(c) and (d): TABLE changes only by DRAIN, FETCH of the key and RESET; a DRAIN only replaces an Entry, by one decoded
from a complete frame, and removes none. -/
def Obligations.EntriesPersist : Prop :=
  ∀ (s t : State) (i : Instr) (k : Key), exec i s = .next t →
    (i ≠ .drain → i ≠ .reset → i ≠ .fetch k → t.table.get k = s.table.get k) ∧
    (i = .drain → t.table.get k = s.table.get k ∨
      ∃ f e, isComplete f = true ∧ decodeFrame f = .entry k e ∧ t.table.get k = some e) ∧
    (i = .reset → t.table.get k = none)

/-- R150(e): what `decode` makes of a built frame that is complete. -/
def Obligations.BuiltFramesDecode : Prop :=
  ∀ body : Bytes,
    (isComplete (build 0xFF#8 body) = true →
      decodeFrame (build 0xFF#8 body) = .entry 0xFF#8 ⟨.ok, some (0xFF#8 :: body)⟩) ∧
    (isComplete (build 0xBB#8 body) = true →
      decodeFrame (build 0xBB#8 body) = .entry 0xBB#8 ⟨.ok, some (body.drop 1)⟩) ∧
    (∀ id : Byte, id = 0xAA#8 ∨ id = 0xCC#8 → isComplete (build id body) = true → 2 ≤ body.length →
      ∀ k, body[1]? = some k → k ≠ 0xDE#8 →
        decodeFrame (build id body) = .entry k ⟨.ok, some (body.drop 2)⟩)

/-- R148: KEYS, with the bitmap's layout of R70 and bit 0xDE. -/
def Obligations.KeysCommand : Prop :=
  (∀ s : State, ∃ m : Bytes, exec .keys s = .next (answered s (0x00#8 :: m)) ∧ m.length = 32 ∧
    (∀ k : Key, (m.getD (k.toNat / 8) 0x00#8).getLsbD (k.toNat % 8) = (s.table.get k).isSome) ∧
    (s.Inv → (m.getD 27 0x00#8).getLsbD 6 = false)) ∧
  formatN 0x12#8 .keys ∧
  (afterAll [.push [0xAA#8, 0x01#8, 0x01#8, 0x00#8, 0x30#8, 0xC3#8, 0xEE#8], .drain, .keys] State.reset).map State.outbox =
    some [[0x00#8], [0x00#8], 0x00#8 :: 0x02#8 :: List.replicate 31 0x00#8]

/-- R149: FETCH, any KEY, with its response format; under the invariants key 0xDE is never present; an absent key stays absent
unless a DRAIN files it. -/
def Obligations.FetchCommand : Prop :=
  (∀ (s : State) (k : Key) (e : Entry), s.table.get k = some e →
    ∃ t, exec (.fetch k) s = .next t ∧ t.table.get k = none ∧
      (∀ k', k' ≠ k → t.table.get k' = s.table.get k') ∧
      t.pstate = s.pstate ∧ t.pbuf = s.pbuf ∧ t.cq = s.cq ∧ t.params = s.params ∧ t.inbox = s.inbox ∧
      (∀ pl, e.payload = some pl →
        t.outbox = s.outbox ++ [[0x00#8, e.status.byte] ++ lenField pl.length ++ pl]) ∧
      (e.payload = none → t.outbox = s.outbox ++ [[0x00#8, e.status.byte, 0x00#8, 0x00#8]])) ∧
  (∀ (s : State) (k : Key), s.table.get k = none →
    exec (.fetch k) s = .next (answered s [0x00#8, 0x01#8, 0x00#8, 0x00#8])) ∧
  (∀ s : State, s.Inv → exec (.fetch 0xDE#8) s = .next (answered s [0x00#8, 0x01#8, 0x00#8, 0x00#8])) ∧
  (∀ k : Key, decode [0x13#8, k] = .ok (.fetch k)) ∧
  errFormatUnless 0x13#8 (fun tail => ∃ k, tail = [k]) ∧
  (∀ (s t : State) (i : Instr) (k : Key), s.table.get k = none → exec i s = .next t →
    t.table.get k = none ∨
      (i = .drain ∧ ∃ f e, isComplete f = true ∧ decodeFrame f = .entry k e ∧ t.table.get k = some e)) ∧
  (∀ s : State, s.table.get 0x01#8 = some ⟨.ok, some [0x00#8, 0x30#8]⟩ →
    (afterAll [.fetch 0x01#8, .fetch 0x01#8] s).map State.outbox =
      some (s.outbox ++ [[0x00#8, 0x00#8, 0x00#8, 0x02#8, 0x00#8, 0x30#8], [0x00#8, 0x01#8, 0x00#8, 0x00#8]]))

/-- R150(b): the second FETCH of a key gives NOT_IN_BUFFER and changes no element. -/
def Obligations.FetchPopsOnce : Prop :=
  ∀ (s : State) (k : Key), ∃ t, exec (.fetch k) s = .next t ∧
    exec (.fetch k) t = .next (answered t [0x00#8, 0x01#8, 0x00#8, 0x00#8])

/-! ### Control, frames of the whole machine, pseudo-operations -/

/-- R160: STATUS. -/
def Obligations.StatusCommand : Prop :=
  (∀ s : State, exec .status s = .next (answered s
    ([0x00#8, if s.pstate = .pending then 0x01#8 else 0x00#8] ++ lenField s.pbuf.length ++ lenField s.cq.length))) ∧
  (∀ n : Nat, n ≤ 65535 → ∃ hi lo : Byte, lenField n = [hi, lo] ∧ n = hi.toNat * 256 + lo.toNat) ∧
  formatN 0x14#8 .status ∧
  ((afterAll [.push [0xFF#8, 0x01#8, 0x01#8], .drain, .status] State.reset).bind fun t => t.outbox.getLast?) =
    some [0x00#8, 0x01#8, 0x00#8, 0x03#8, 0x00#8, 0x00#8]

/-- R161: RESET gives the reset values of R29 and answers ACK; it is idempotent; its effect is the reset input's, with a
response. -/
def Obligations.ResetCommand : Prop :=
  (∀ s : State, ∃ t, exec .reset s = .next t ∧ t.pstate = .empty ∧ t.pbuf = [] ∧ (∀ k, t.table.get k = none) ∧
    t.cq = [] ∧ t.outbox = s.outbox ++ [[0x00#8]] ∧ exec .reset t = .next (answered t [0x00#8])) ∧
  (∀ (s : State) (rest : List PortEvent), s.inbox = .resetInput :: rest →
    ∃ t, step s = .next t ∧ exec .reset { s with inbox := rest } = .next (answered t [0x00#8])) ∧
  formatN 0x1F#8 .reset ∧
  ((afterAll [.push [0x00#8], .drain, .reset, .status] State.reset).map fun t => t.outbox.drop 2) =
    some [[0x00#8], [0x00#8, 0x00#8, 0x00#8, 0x00#8, 0x00#8, 0x00#8]]

/-- R46: CRC8, VERIFY, STUFF, UNSTUFF, CLASSIFY, BUILD, KEYS and STATUS leave every state element unchanged, whatever they
answer, and answer the same again. -/
def Obligations.PureCommandsLeaveTheState : Prop :=
  ∀ (s : State) (i : Instr), isPure i →
    ∃ r, exec i s = .next (answered s r) ∧ exec i (answered s r) = .next (answered (answered s r) r)

/-- R20, with the frame of every command: no command writes the parameters or the events waiting at the port; PUSH writes
only CQ, FETCH only TABLE, and every command adds exactly one response. -/
def Obligations.CommandFrames : Prop :=
  ∀ (s t : State) (i : Instr), exec i s = .next t →
    t.params = s.params ∧ t.inbox = s.inbox ∧ (∃ r, t.outbox = s.outbox ++ [r]) ∧
    (isPure i → sameElements s t) ∧
    (∀ data, i = .push data → t.pstate = s.pstate ∧ t.pbuf = s.pbuf ∧ t.table = s.table) ∧
    (∀ k, i = .fetch k → t.pstate = s.pstate ∧ t.pbuf = s.pbuf ∧ t.cq = s.cq) ∧
    (i = .drain → t.cq = [])

/-- R27 and R170: the numeric codes as the host reads them. -/
def Obligations.StatusAndErrorCodes : Prop :=
  Status.ok.byte = 0x00#8 ∧ Status.notInBuffer.byte = 0x01#8 ∧ Status.incompleteCommunication.byte = 0x02#8 ∧
  Status.transportDown.byte = 0x03#8 ∧ Status.hostOldVersion.byte = 0x04#8 ∧ Status.deviceOldVersion.byte = 0x05#8 ∧
  Status.deviceTimeout.byte = 0x06#8 ∧ Status.invalidResponse.byte = 0x07#8 ∧ Status.checksumFailed.byte = 0x08#8 ∧
  ErrCode.errOpcode.byte = 0x01#8 ∧ ErrCode.errFormat.byte = 0x02#8 ∧ ErrCode.errLength.byte = 0x03#8 ∧
  ErrCode.errIdentity.byte = 0x04#8 ∧ ErrCode.errQueueFull.byte = 0x05#8 ∧ ackByte = 0x00#8

/-- R74: the pseudo-operations as the commands a host issues, 16-bit values high byte first (R42); REGISTER_SENSOR refuses
the reserved key, in either of the two readings R74 leaves open (log 16). -/
def Obligations.PseudoOperations : Prop :=
  pseudoPoll = [.drain, .keys] ∧
  (∀ (address cmd : Byte) (vs : List (BitVec 16)), pseudoSend address cmd vs =
    .build 0xAA#8 ([address, cmd] ++ (vs.map fun v => [BitVec.ofNat 8 (v.toNat / 256), BitVec.ofNat 8 v.toNat]).flatten)) ∧
  (∀ address v₁ v₀ interval : Byte,
    pseudoInitFrame address v₁ v₀ interval = .build 0xFF#8 [address, v₁, v₀, interval]) ∧
  (∀ (r : RegisterReading) (address cmd id paddr ikey type : Byte),
    pseudoRegisterSensor r address cmd id paddr ikey type = none ↔ id = 0xDE#8) ∧
  (∀ id : Key, pseudoFetchSensor id = .fetch id) ∧ pseudoFetchHeartbeat = .fetch 0xBB#8

/-- R22, its second sentence, with R5's `PEND_CAP`: whatever a DRAIN of a state with the invariants has processed, the pending
bytes and the next candidate together fit the capacity of the pending slot; in the default build they can fill it. That a
build that sets the capacity itself sets it large enough is a part of the invariants (log 20). -/
def Obligations.ConcatenationsFitThePendingSlot : Prop :=
  (∀ (s : State) (older newer : List Bytes) (c : Bytes) (cy : Cycle), s.Inv → s.cq = older ++ [c] ++ newer →
    drainLoop s.params.lossBound newer.reverse s.startCycle = .ok cy → (cy.pbuf ++ c).length ≤ s.params.pendCap) ∧
  (∃ (s : State) (c : Bytes), s.Inv ∧ s.params = Params.default ∧ s.pstate = .pending ∧ s.cq = [c] ∧
    isComplete c = false ∧ (s.pbuf ++ c).length = s.params.pendCap)

/-- R5: the five parameters are arguments of the build, whatever their values, and the defaults are the rule's; the two
capacities follow the other parameters where a build does not set them, and are then large enough in the sense of log 20. -/
def Obligations.BuildParameters : Prop :=
  Params.default = ⟨20, 256, 100, 512, 512⟩ ∧
  (∀ lossBound maxCandLen maxCands : Nat,
    let p : Params := { lossBound, maxCandLen, maxCands }
    p.pendCap = max maxCandLen lossBound + maxCandLen ∧ p.payloadCap = p.pendCap ∧ p.roomy) ∧
  (∀ pendCap : Nat, ({ pendCap } : Params).payloadCap = pendCap) ∧
  (∀ lossBound maxCandLen maxCands pendCap payloadCap : Nat,
    let s := State.resetWith { lossBound, maxCandLen, maxCands, pendCap, payloadCap }
    s.params.lossBound = lossBound ∧ s.params.maxCandLen = maxCandLen ∧ s.params.maxCands = maxCands ∧
      s.params.pendCap = pendCap ∧ s.params.payloadCap = payloadCap)
end

