-- ==== Sys2Proof/Laws/Frame.lean ====
section
/-! SUPPORT. The small laws of the pure functions: one equation per case of a definition, and all that `decode` of a frame can answer. -/

namespace Sys2Proof.Machine

@[simp] theorem crc8From_nil (c : Byte) : crc8From c [] = c := rfl
@[simp] theorem crc8From_cons (c b : Byte) (s : Bytes) : crc8From c (b :: s) = crc8From (crc8Byte c b) s := rfl

@[simp] theorem slice_zero (b : Nat) (s : Bytes) : slice 0 b s = s.take b := rfl

theorem slice_length_le (a b : Nat) (s : Bytes) : (slice a b s).length ≤ s.length := by
  simp only [slice, List.length_drop, List.length_take]
  omega

@[simp] theorem stuff_nil : stuff [] = [] := rfl

theorem stuff_cons (b : Byte) (s : Bytes) :
    stuff (b :: s) = (if isReserved b then [wire.esc, b] else [b]) ++ stuff s := by
  by_cases h : isReserved b <;> simp [stuff, h]

theorem stuff_append (s t : Bytes) : stuff (s ++ t) = stuff s ++ stuff t := by
  induction s with
  | nil => rfl
  | cons b s ih => rw [List.cons_append, stuff_cons, ih, stuff_cons, List.append_assoc]

@[simp] theorem unstuff_nil : unstuff [] = [] := rfl
@[simp] theorem unstuff_esc_alone : unstuff [wire.esc] = [] := rfl
@[simp] theorem unstuff_esc_cons (x : Byte) (s : Bytes) : unstuff (wire.esc :: x :: s) = x :: unstuff s := by
  simp [unstuff]

theorem unstuff_cons_of_ne {b : Byte} (h : b ≠ wire.esc) (s : Bytes) : unstuff (b :: s) = b :: unstuff s := by
  cases s <;> simp [unstuff, h]

theorem unstuff_length_le (s : Bytes) : (unstuff s).length ≤ s.length := by
  induction s using unstuff.induct with
  | case1 => simp
  | case2 => simp
  | case3 b h => simp [unstuff, h]
  | case4 x s ih => rw [unstuff_esc_cons]; simp; omega
  | case5 b x s h ih => rw [unstuff_cons_of_ne h]; simpa using ih

theorem isIdentity_ne_esc {b : Byte} (h : isIdentity b = true) : b ≠ wire.esc := by
  rintro rfl
  revert h
  decide

/-- `identityOf` names a category exactly for the bytes of `IDS`. -/
theorem identityOf_isSome (b : Byte) : (identityOf b).isSome = isIdentity b := by
  simp only [identityOf, isIdentity, identitySet, List.contains_cons, List.contains_nil]
  split_ifs <;> simp_all

theorem isComplete_iff (c : Bytes) :
    isComplete c = true ↔
      4 < c.length ∧ (∃ b s, c = b :: s ∧ isIdentity b = true) ∧ c.getLast? = some wire.term := by
  cases c <;> simp [isComplete, and_assoc]

/-- A complete candidate keeps its identity byte through `unstuff`. -/
theorem unstuff_head_of_complete {c : Bytes} (h : isComplete c = true) :
    ∃ b, isIdentity b = true ∧ (unstuff c).head? = some b ∧ c.head? = some b := by
  obtain ⟨-, ⟨b, s, rfl, hb⟩, -⟩ := (isComplete_iff c).1 h
  exact ⟨b, hb, by rw [unstuff_cons_of_ne (isIdentity_ne_esc hb)]; rfl, rfl⟩

theorem keyed_cases (k : Key) (e : Entry) :
    (k = wire.reserved ∧ keyed k e = .drop) ∨ (k ≠ wire.reserved ∧ keyed k e = .entry k e) := by
  by_cases h : k = wire.reserved
  · exact .inl ⟨h, by simp [keyed, h]⟩
  · exact .inr ⟨h, by simp [keyed, h]⟩

/-- All that the COMM and SENSOR arm can answer. -/
theorem decodeSub_cases (f u : Bytes) :
    decodeSub f u = .drop ∨
      ∃ k, u[2]? = some k ∧ 5 ≤ u.length ∧ k ≠ wire.reserved ∧
        decodeSub f u = .entry k (entryOf f (slice 3 (u.length - 2) u)) := by
  match u with
  | [] => exact .inl rfl
  | [_] => exact .inl rfl
  | [_, _] => exact .inl rfl
  | a :: b :: k :: s =>
    rw [decodeSub]
    split
    · exact .inl rfl
    · rename_i hn
      rcases keyed_cases k (entryOf f (slice 3 ((a :: b :: k :: s).length - 2) (a :: b :: k :: s))) with ⟨-, h⟩ | ⟨hk, h⟩
      · exact .inl h
      · exact .inr ⟨k, rfl, Nat.le_of_not_lt hn, hk, h⟩

/-- All that `decode` of a frame can answer: the unreachable arm, DROP, or an Entry of this frame under a key that is
not the reserved one, its payload a slice of the unstuffed frame. -/
theorem decodeFrame_cases (f : Bytes) :
    decodeFrame f = .unrecognized ∨ decodeFrame f = .drop ∨
      ∃ k a b, k ≠ wire.reserved ∧ decodeFrame f = .entry k (entryOf f (slice a b (unstuff f))) := by
  simp only [decodeFrame]
  have hkeyed : ∀ k a b, keyed k (entryOf f (slice a b (unstuff f))) = .drop ∨
      ∃ k' a' b', k' ≠ wire.reserved ∧
        keyed k (entryOf f (slice a b (unstuff f))) = .entry k' (entryOf f (slice a' b' (unstuff f))) := by
    intro k a b
    rcases keyed_cases k (entryOf f (slice a b (unstuff f))) with ⟨-, h⟩ | ⟨hk, h⟩
    · exact .inl h
    · exact .inr ⟨k, a, b, hk, h⟩
  have hsub : decodeSub f (unstuff f) = .drop ∨
      ∃ k' a' b', k' ≠ wire.reserved ∧ decodeSub f (unstuff f) = .entry k' (entryOf f (slice a' b' (unstuff f))) := by
    rcases decodeSub_cases f (unstuff f) with h | ⟨k, -, -, hk, h⟩
    · exact .inl h
    · exact .inr ⟨k, _, _, hk, h⟩
  split
  · exact .inr (hkeyed _ _ _)
  · exact .inr (hkeyed _ _ _)
  · exact .inr hsub
  · exact .inr hsub
  · exact .inl rfl

/-- The arm "any other byte" of `decode` cannot run on a complete candidate (44_demux.md R140, I1). -/
theorem decodeFrame_ne_unrecognized {f : Bytes} (h : isComplete f = true) : decodeFrame f ≠ .unrecognized := by
  obtain ⟨b, hb, hu, -⟩ := unstuff_head_of_complete h
  obtain ⟨i, hi⟩ := Option.isSome_iff_exists.1 ((identityOf_isSome b).trans hb)
  have hkeyed : ∀ k e, keyed k e ≠ .unrecognized := by
    intro k e
    rcases keyed_cases k e with ⟨-, h⟩ | ⟨-, h⟩ <;> simp [h]
  have hsub : decodeSub f (unstuff f) ≠ .unrecognized := by
    rcases decodeSub_cases f (unstuff f) with h | ⟨k, -, -, -, h⟩ <;> simp [h]
  simp only [decodeFrame, hu, Option.bind_some, hi]
  cases i
  · exact hkeyed _ _
  · exact hsub
  · exact hkeyed _ _
  · exact hsub

theorem entryOf_cases (f pl : Bytes) :
    (verify f = .ok ∧ entryOf f pl = ⟨.ok, some pl⟩) ∨
      (verify f ≠ .ok ∧ entryOf f pl = ⟨.checksumFailed, none⟩) := by
  by_cases h : verify f = .ok
  · exact .inl ⟨h, by simp [entryOf, h]⟩
  · exact .inr ⟨h, by simp [entryOf, h]⟩

theorem verify_cases (f : Bytes) : verify f = .ok ∨ verify f = .checksumFailed := by
  simp only [verify]
  split
  · exact .inr rfl
  · split
    · exact .inl rfl
    · exact .inr rfl

end Sys2Proof.Machine
end

