-- ==== Sys2Proof/Laws/State.lean ====
section
/-! SUPPORT. One lemma per field of State per update of it, true by unfolding, so that no later proof unfolds a record update. -/

namespace Sys2Proof.Machine

@[simp] theorem State.respond_params (s : State) (r : Response) : (s.respond r).params = s.params := rfl
@[simp] theorem State.respond_pstate (s : State) (r : Response) : (s.respond r).pstate = s.pstate := rfl
@[simp] theorem State.respond_pbuf (s : State) (r : Response) : (s.respond r).pbuf = s.pbuf := rfl
@[simp] theorem State.respond_table (s : State) (r : Response) : (s.respond r).table = s.table := rfl
@[simp] theorem State.respond_cq (s : State) (r : Response) : (s.respond r).cq = s.cq := rfl
@[simp] theorem State.respond_inbox (s : State) (r : Response) : (s.respond r).inbox = s.inbox := rfl
@[simp] theorem State.respond_outbox (s : State) (r : Response) : (s.respond r).outbox = s.outbox ++ [r.encode] := rfl

@[simp] theorem State.withTable_params (s : State) (t : Table) : (s.withTable t).params = s.params := rfl
@[simp] theorem State.withTable_pstate (s : State) (t : Table) : (s.withTable t).pstate = s.pstate := rfl
@[simp] theorem State.withTable_pbuf (s : State) (t : Table) : (s.withTable t).pbuf = s.pbuf := rfl
@[simp] theorem State.withTable_table (s : State) (t : Table) : (s.withTable t).table = t := rfl
@[simp] theorem State.withTable_cq (s : State) (t : Table) : (s.withTable t).cq = s.cq := rfl
@[simp] theorem State.withTable_inbox (s : State) (t : Table) : (s.withTable t).inbox = s.inbox := rfl
@[simp] theorem State.withTable_outbox (s : State) (t : Table) : (s.withTable t).outbox = s.outbox := rfl

@[simp] theorem State.withQueue_params (s : State) (q : List Bytes) : (s.withQueue q).params = s.params := rfl
@[simp] theorem State.withQueue_pstate (s : State) (q : List Bytes) : (s.withQueue q).pstate = s.pstate := rfl
@[simp] theorem State.withQueue_pbuf (s : State) (q : List Bytes) : (s.withQueue q).pbuf = s.pbuf := rfl
@[simp] theorem State.withQueue_table (s : State) (q : List Bytes) : (s.withQueue q).table = s.table := rfl
@[simp] theorem State.withQueue_cq (s : State) (q : List Bytes) : (s.withQueue q).cq = q := rfl
@[simp] theorem State.withQueue_inbox (s : State) (q : List Bytes) : (s.withQueue q).inbox = s.inbox := rfl
@[simp] theorem State.withQueue_outbox (s : State) (q : List Bytes) : (s.withQueue q).outbox = s.outbox := rfl

@[simp] theorem State.clearElements_params (s : State) : (s.clearElements).params = s.params := rfl
@[simp] theorem State.clearElements_pstate (s : State) : (s.clearElements).pstate = .empty := rfl
@[simp] theorem State.clearElements_pbuf (s : State) : (s.clearElements).pbuf = [] := rfl
@[simp] theorem State.clearElements_table (s : State) : (s.clearElements).table = [] := rfl
@[simp] theorem State.clearElements_cq (s : State) : (s.clearElements).cq = [] := rfl
@[simp] theorem State.clearElements_inbox (s : State) : (s.clearElements).inbox = s.inbox := rfl
@[simp] theorem State.clearElements_outbox (s : State) : (s.clearElements).outbox = s.outbox := rfl

@[simp] theorem State.endCycle_params (s : State) (cy : Cycle) : (s.endCycle cy).params = s.params := rfl
@[simp] theorem State.endCycle_pstate (s : State) (cy : Cycle) : (s.endCycle cy).pstate = cy.pstate := rfl
@[simp] theorem State.endCycle_pbuf (s : State) (cy : Cycle) : (s.endCycle cy).pbuf = cy.pbuf := rfl
@[simp] theorem State.endCycle_table (s : State) (cy : Cycle) : (s.endCycle cy).table = cy.table := rfl
@[simp] theorem State.endCycle_cq (s : State) (cy : Cycle) : (s.endCycle cy).cq = [] := rfl
@[simp] theorem State.endCycle_inbox (s : State) (cy : Cycle) : (s.endCycle cy).inbox = s.inbox := rfl
@[simp] theorem State.endCycle_outbox (s : State) (cy : Cycle) : (s.endCycle cy).outbox = s.outbox := rfl

@[simp] theorem State.withFetchWord_params (s : State) (n w : Nat) : (s.withFetchWord n w).params = s.params := rfl
@[simp] theorem State.withFetchWord_pstate (s : State) (n w : Nat) : (s.withFetchWord n w).pstate = s.pstate := rfl
@[simp] theorem State.withFetchWord_pbuf (s : State) (n w : Nat) : (s.withFetchWord n w).pbuf = s.pbuf := rfl
@[simp] theorem State.withFetchWord_table (s : State) (n w : Nat) : (s.withFetchWord n w).table = s.table := rfl
@[simp] theorem State.withFetchWord_cq (s : State) (n w : Nat) : (s.withFetchWord n w).cq = s.cq := rfl
@[simp] theorem State.withFetchWord_inbox (s : State) (n w : Nat) : (s.withFetchWord n w).inbox = .command (wordMessage n w) :: s.inbox := rfl
@[simp] theorem State.withFetchWord_outbox (s : State) (n w : Nat) : (s.withFetchWord n w).outbox = s.outbox := rfl

@[simp] theorem State.startCycle_pstate (s : State) : s.startCycle.pstate = s.pstate := rfl
@[simp] theorem State.startCycle_pbuf (s : State) : s.startCycle.pbuf = s.pbuf := rfl
@[simp] theorem State.startCycle_table (s : State) : s.startCycle.table = s.table := rfl
@[simp] theorem State.startCycle_seen (s : State) : s.startCycle.seen = [] := rfl

@[simp] theorem State.resetWith_params (p : Params) : (State.resetWith p).params = p := rfl
@[simp] theorem State.resetWith_pstate (p : Params) : (State.resetWith p).pstate = .empty := rfl
@[simp] theorem State.resetWith_pbuf (p : Params) : (State.resetWith p).pbuf = [] := rfl
@[simp] theorem State.resetWith_table (p : Params) : (State.resetWith p).table = [] := rfl
@[simp] theorem State.resetWith_cq (p : Params) : (State.resetWith p).cq = [] := rfl
@[simp] theorem State.resetWith_inbox (p : Params) : (State.resetWith p).inbox = [] := rfl
@[simp] theorem State.resetWith_outbox (p : Params) : (State.resetWith p).outbox = [] := rfl

/-- The whole of what `takeEvent` can answer. -/
theorem takeEvent_eq_some {s t : State} {ev : PortEvent} :
    takeEvent s = some (ev, t) ↔ ∃ rest, s.inbox = ev :: rest ∧ t = { s with inbox := rest } := by
  unfold takeEvent
  cases h : s.inbox with
  | nil => simp
  | cons e rest =>
    constructor
    · intro hh
      obtain ⟨rfl, rfl⟩ := Prod.mk.inj (Option.some.inj hh)
      exact ⟨rest, rfl, rfl⟩
    · rintro ⟨rest', hr, rfl⟩
      obtain ⟨rfl, rfl⟩ := List.cons.inj hr
      rfl

theorem takeEvent_eq_none {s : State} : takeEvent s = none ↔ s.inbox = [] := by
  unfold takeEvent
  cases s.inbox <;> simp

end Sys2Proof.Machine
end

