-- ==== Sys2Proof/Laws/Drain.lean ====
section
/-! SUPPORT. Everything filing, a reassembly step, one candidate and a whole DRAIN can do, said once. -/

namespace Sys2Proof.Machine

/-- What filing does: nothing for a key already seen; otherwise the slot is written and the key marked. -/
theorem file_cases (k : Key) (e : Entry) (cy : Cycle) :
    (k ∈ cy.seen ∧ file k e cy = cy) ∨
      (k ∉ cy.seen ∧ file k e cy = { cy with seen := k :: cy.seen, table := cy.table.set k e }) := by
  by_cases h : k ∈ cy.seen
  · exact .inl ⟨h, by simp [file, h]⟩
  · exact .inr ⟨h, by simp [file, h]⟩

@[simp] theorem file_pstate (k : Key) (e : Entry) (cy : Cycle) : (file k e cy).pstate = cy.pstate := by
  rcases file_cases k e cy with ⟨-, h⟩ | ⟨-, h⟩ <;> rw [h]

@[simp] theorem file_pbuf (k : Key) (e : Entry) (cy : Cycle) : (file k e cy).pbuf = cy.pbuf := by
  rcases file_cases k e cy with ⟨-, h⟩ | ⟨-, h⟩ <;> rw [h]

/-- Filing the decoded form of a complete frame: DROP changes nothing, an Entry is filed. -/
theorem fileDecoded_complete {f : Bytes} (hf : isComplete f = true) (cy : Cycle) :
    (decodeFrame f = .drop ∧ fileDecoded (decodeFrame f) cy = .ok cy) ∨
      ∃ k a b, k ≠ wire.reserved ∧ decodeFrame f = .entry k (entryOf f (slice a b (unstuff f))) ∧
        fileDecoded (decodeFrame f) cy = .ok (file k (entryOf f (slice a b (unstuff f))) cy) := by
  rcases decodeFrame_cases f with h | h | ⟨k, a, b, hk, h⟩
  · exact absurd h (decodeFrame_ne_unrecognized hf)
  · exact .inl ⟨h, by rw [h]; rfl⟩
  · exact .inr ⟨k, a, b, hk, h, by rw [h]; rfl⟩

/-- Everything one candidate can do inside a DRAIN, guards included. -/
theorem process_cases (lb : Nat) (c : Bytes) (cy : Cycle) :
    (isComplete c = true ∧ process lb c cy = fileDecoded (decodeFrame c) cy) ∨
    (isComplete c = false ∧ cy.pstate = .empty ∧
      process lb c cy = .ok { cy with pstate := .pending, pbuf := c }) ∨
    (isComplete c = false ∧ cy.pstate = .pending ∧ isComplete (cy.pbuf ++ c) = true ∧
      process lb c cy = fileDecoded (decodeFrame (cy.pbuf ++ c)) { cy with pstate := .empty, pbuf := [] }) ∨
    (isComplete c = false ∧ cy.pstate = .pending ∧ isComplete (cy.pbuf ++ c) = false ∧
      lb < (cy.pbuf ++ c).length ∧ process lb c cy = .ok { cy with pstate := .empty, pbuf := [] }) ∨
    (isComplete c = false ∧ cy.pstate = .pending ∧ isComplete (cy.pbuf ++ c) = false ∧
      (cy.pbuf ++ c).length ≤ lb ∧ process lb c cy = .ok { cy with pbuf := cy.pbuf ++ c }) := by
  unfold process
  cases hc : isComplete c with
  | true => simp
  | false =>
    cases hp : cy.pstate with
    | empty => simp [reasm, hp]
    | pending =>
      cases hq : isComplete (cy.pbuf ++ c) with
      | true => simp [reasm, hp, hq]
      | false =>
        by_cases hl : lb < (cy.pbuf ++ c).length
        · simp only [reasm, hp, hq, hl]
          simp
        · have hl' : (cy.pbuf ++ c).length ≤ lb := Nat.le_of_not_lt hl
          simp only [reasm, hp, hq, hl, hl']
          simp

/-- No candidate makes a DRAIN fault. -/
theorem process_ok (lb : Nat) (c : Bytes) (cy : Cycle) : ∃ cy', process lb c cy = .ok cy' := by
  rcases process_cases lb c cy with ⟨hc, h⟩ | ⟨-, -, h⟩ | ⟨-, -, hq, h⟩ | ⟨-, -, -, -, h⟩ | ⟨-, -, -, -, h⟩
  · rcases fileDecoded_complete hc cy with ⟨-, hf⟩ | ⟨k, a, b, -, -, hf⟩
    · exact ⟨_, h.trans hf⟩
    · exact ⟨_, h.trans hf⟩
  · exact ⟨_, h⟩
  · rcases fileDecoded_complete hq { cy with pstate := .empty, pbuf := [] } with ⟨-, hf⟩ | ⟨k, a, b, -, -, hf⟩
    · exact ⟨_, h.trans hf⟩
    · exact ⟨_, h.trans hf⟩
  · exact ⟨_, h⟩
  · exact ⟨_, h⟩

@[simp] theorem drainLoop_nil (lb : Nat) (cy : Cycle) : drainLoop lb [] cy = .ok cy := rfl

theorem drainLoop_cons {lb : Nat} {c : Bytes} {cy cy' : Cycle} (h : process lb c cy = .ok cy') (cs : List Bytes) :
    drainLoop lb (c :: cs) cy = drainLoop lb cs cy' := by
  simp [drainLoop, h]

/-- A property of the working state that every candidate of the list keeps holds at the end of the loop, and the loop
never faults. -/
theorem drainLoop_induct {lb : Nat} (P : Cycle → Prop) {cs : List Bytes}
    (hstep : ∀ c ∈ cs, ∀ cy cy', P cy → process lb c cy = .ok cy' → P cy') :
    ∀ cy, P cy → ∃ cy', drainLoop lb cs cy = .ok cy' ∧ P cy' := by
  induction cs with
  | nil => exact fun cy h => ⟨cy, rfl, h⟩
  | cons c cs ih =>
    intro cy h
    obtain ⟨cy₁, h₁⟩ := process_ok lb c cy
    obtain ⟨cy₂, h₂, hP⟩ := ih (fun x hx => hstep x (List.mem_cons_of_mem _ hx)) cy₁
      (hstep c List.mem_cons_self cy cy₁ h h₁)
    exact ⟨cy₂, (drainLoop_cons h₁ cs).trans h₂, hP⟩

/-- Draining a list after another. -/
theorem drainLoop_append {lb : Nat} {cs ds : List Bytes} {cy cy' : Cycle} (h : drainLoop lb cs cy = .ok cy') :
    drainLoop lb (cs ++ ds) cy = drainLoop lb ds cy' := by
  induction cs generalizing cy with
  | nil => cases h; rfl
  | cons c cs ih =>
    obtain ⟨cy₁, h₁⟩ := process_ok lb c cy
    rw [drainLoop_cons h₁] at h
    rw [List.cons_append, drainLoop_cons h₁, ih h]

/-- DRAIN in terms of its loop. -/
theorem execDrain_of_loop {s : State} {cy : Cycle}
    (h : drainLoop s.params.lossBound s.cq.reverse s.startCycle = .ok cy) :
    execDrain s = .next ((s.endCycle cy).respond .ra) := by
  simp [execDrain, h]

end Sys2Proof.Machine
end

