-- ==== Sys2Proof/Laws/Encoding.lean ====
section
/-! SUPPORT. The opcode map has no overlap, and the small laws of the 16-bit fields and of the response encoding. -/

namespace Sys2Proof

/-- No two rows of the opcode map share an opcode. -/
theorem opcodeTable_distinct : (opcodeTable.map OpRow.opc).Pairwise (· ≠ ·) := by decide

/-- A big-endian field reads back the value written, when it fits. -/
theorem be16_be16Bytes {n : Nat} (h : n < 65536) :
    be16 (BitVec.ofNat 8 (n / 256)) (BitVec.ofNat 8 n) = n := by
  simp only [be16, BitVec.toNat_ofNat]
  omega

/-- A big-endian field is below 65536. -/
theorem be16_lt (hi lo : Byte) : be16 hi lo < 65536 := by
  have h₁ : hi.toNat < 256 := hi.isLt
  have h₂ : lo.toNat < 256 := lo.isLt
  simp only [be16]
  omega

theorem decodeData_eq_ok {rest data : Bytes} :
    decodeData rest = .ok data ↔ ∃ hi lo, rest = hi :: lo :: data ∧ data.length = be16 hi lo := by
  match rest with
  | [] => simp [decodeData]
  | [_] => simp [decodeData]
  | hi :: lo :: d =>
    simp only [decodeData]
    constructor
    · intro h
      split at h
      · rename_i hl
        cases h
        exact ⟨hi, lo, rfl, hl⟩
      · cases h
    · rintro ⟨hi', lo', h, hl⟩
      cases h
      rw [if_pos hl]

namespace Machine

theorem lenField_of_lt {n : Nat} (h : n < 65536) : lenField n = [BitVec.ofNat 8 (n / 256), BitVec.ofNat 8 n] := by
  simp [lenField, h]

theorem lenField_length (n : Nat) : (lenField n).length = 2 := by
  simp only [lenField]
  split <;> rfl

/-- Every response begins with its response code and holds at least that byte. -/
theorem Response.encode_ne_nil (r : Response) : r.encode ≠ [] := by
  cases r with
  | rf st pl => cases pl <;> simp [Response.encode]
  | _ => simp [Response.encode]

end Machine

end Sys2Proof
end

