-- ==== Sys2Proof/Laws/Operands.lean ====
section
/-! SUPPORT. What each operand check answers, in its two cases, and what a refusal leaves. -/

namespace Sys2Proof.Machine

theorem refuse_eq (rc : ErrCode) (s : State) :
    refuse rc s = .next { s with outbox := s.outbox ++ [[rc.byte]] } := rfl

theorem checkLength_of_le {data : Bytes} {s : State} (h : data.length ≤ s.params.maxCandLen) (go : Result) :
    checkLength data s go = go := by simp [checkLength, Nat.not_lt.2 h]

theorem checkLength_of_gt {data : Bytes} {s : State} (h : s.params.maxCandLen < data.length) (go : Result) :
    checkLength data s go = refuse .errLength s := by simp [checkLength, h]

theorem checkIdentity_of_mem {idb : Byte} (h : isIdentity idb = true) (s : State) (go : Result) :
    checkIdentity idb s go = go := by simp [checkIdentity, h]

theorem checkIdentity_of_not_mem {idb : Byte} (h : isIdentity idb = false) (s : State) (go : Result) :
    checkIdentity idb s go = refuse .errIdentity s := by simp [checkIdentity, h]

theorem checkQueue_of_ne {s : State} (h : s.cq.length ≠ s.params.maxCands) (go : Result) :
    checkQueue s go = go := by simp [checkQueue, h]

theorem checkQueue_of_eq {s : State} (h : s.cq.length = s.params.maxCands) (go : Result) :
    checkQueue s go = refuse .errQueueFull s := by simp [checkQueue, h]

theorem answerData_of_le {data : Bytes} {s : State} (h : data.length ≤ s.params.maxCandLen) (f : Bytes → Response) :
    answerData f data s = .next (s.respond (f data)) := checkLength_of_le h _

theorem answerData_of_gt {data : Bytes} {s : State} (h : s.params.maxCandLen < data.length) (f : Bytes → Response) :
    answerData f data s = refuse .errLength s := checkLength_of_gt h _

end Sys2Proof.Machine
end

