-- ==== Sys2Proof/Laws/PerInstr.lean ====
section
/-! SUPPORT. Statements made of every command as syntax, one lemma per constructor. -/

namespace Sys2Proof.Laws

/-- The opcode of each command, transcribed from spec/opcode_table.json. -/
def tableOpcode : Instr → Nat
  | .crc8 _ => 0x01
  | .verify _ => 0x02
  | .stuff _ => 0x03
  | .unstuff _ => 0x04
  | .classify _ => 0x05
  | .build _ _ => 0x06
  | .push _ => 0x10
  | .drain => 0x11
  | .keys => 0x12
  | .fetch _ => 0x13
  | .status => 0x14
  | .reset => 0x1F

/-- The total length R68 gives the message of each command. -/
def messageLength : Instr → Nat
  | .crc8 data => 3 + data.length
  | .verify data => 3 + data.length
  | .stuff data => 3 + data.length
  | .unstuff data => 3 + data.length
  | .classify data => 3 + data.length
  | .build _ data => 4 + data.length
  | .push data => 3 + data.length
  | .drain => 1
  | .keys => 1
  | .fetch _ => 2
  | .status => 1
  | .reset => 1

/-- The encoding of a command begins with its opcode and has the length of its format. -/
def EncodingShape.Statement (i : Instr) : Prop :=
  (encode i).head? = some (BitVec.ofNat 8 (tableOpcode i)) ∧ (encode i).length = messageLength i

theorem encodeData_length (data : Bytes) : (encodeData data).length = 2 + data.length := by
  simp [encodeData, be16Bytes]; omega

namespace EncodingShape

theorem crc8 (data : Bytes) : Statement (.crc8 data) :=
  ⟨rfl, by simp only [encode, messageLength, List.length_cons, encodeData_length]; omega⟩
theorem verify (data : Bytes) : Statement (.verify data) :=
  ⟨rfl, by simp only [encode, messageLength, List.length_cons, encodeData_length]; omega⟩
theorem stuff (data : Bytes) : Statement (.stuff data) :=
  ⟨rfl, by simp only [encode, messageLength, List.length_cons, encodeData_length]; omega⟩
theorem unstuff (data : Bytes) : Statement (.unstuff data) :=
  ⟨rfl, by simp only [encode, messageLength, List.length_cons, encodeData_length]; omega⟩
theorem classify (data : Bytes) : Statement (.classify data) :=
  ⟨rfl, by simp only [encode, messageLength, List.length_cons, encodeData_length]; omega⟩
theorem build (idb : Byte) (data : Bytes) : Statement (.build idb data) :=
  ⟨rfl, by simp only [encode, messageLength, List.length_cons, encodeData_length]; omega⟩
theorem push (data : Bytes) : Statement (.push data) :=
  ⟨rfl, by simp only [encode, messageLength, List.length_cons, encodeData_length]; omega⟩
theorem drain : Statement .drain := ⟨rfl, rfl⟩
theorem keys : Statement .keys := ⟨rfl, rfl⟩
theorem fetch (key : Key) : Statement (.fetch key) := ⟨rfl, rfl⟩
theorem status : Statement .status := ⟨rfl, rfl⟩
theorem reset : Statement .reset := ⟨rfl, rfl⟩

end EncodingShape

end Sys2Proof.Laws
end

