-- ==== Sys2Proof/Laws/Table.lean ====
section
/-! SUPPORT. TABLE as a map: what reading a slot gives after a write or a removal, and that both keep the canonical form. -/

namespace Sys2Proof.Machine

@[simp] theorem Table.get_nil (k : Key) : Table.get [] k = none := rfl

theorem Table.get_cons (p : Key × Entry) (t : Table) (k : Key) :
    Table.get (p :: t) k = if p.1 = k then some p.2 else Table.get t k := rfl

theorem Table.get_set_self (t : Table) (k : Key) (e : Entry) : (t.set k e).get k = some e := by
  induction t with
  | nil => simp [Table.set, Table.get]
  | cons p t ih =>
    obtain ⟨k', e'⟩ := p
    simp only [Table.set]
    split
    · simp [Table.get]
    · rename_i hk
      split
      · simp [Table.get]
      · simpa [Table.get, Ne.symm hk] using ih

theorem Table.get_set_of_ne {k k' : Key} (h : k' ≠ k) (t : Table) (e : Entry) :
    (t.set k e).get k' = t.get k' := by
  induction t with
  | nil => simp [Table.set, Table.get, Ne.symm h]
  | cons p t ih =>
    obtain ⟨k₁, e₁⟩ := p
    simp only [Table.set]
    split
    · rename_i hk
      subst hk
      simp [Table.get, Ne.symm h]
    · split
      · simp [Table.get, Ne.symm h]
      · simp [Table.get, ih]

theorem Table.get_set (t : Table) (k k' : Key) (e : Entry) :
    (t.set k e).get k' = if k' = k then some e else t.get k' := by
  split
  · rename_i h
    rw [h, Table.get_set_self]
  · rename_i h
    exact Table.get_set_of_ne h t e

theorem Table.get_erase (t : Table) (k k' : Key) :
    (t.erase k).get k' = if k' = k then none else t.get k' := by
  induction t with
  | nil => simp [Table.erase]
  | cons p t ih =>
    rw [Table.get_cons, Table.erase, List.filter_cons]
    by_cases hp : p.1 = k
    · rw [if_neg (by simp [hp])]
      refine ih.trans ?_
      by_cases hk : k' = k
      · simp [hk]
      · simp [hk, hp, Ne.symm hk]
    · rw [if_pos (by simp [hp]), Table.get_cons]
      by_cases hpk : p.1 = k'
      · simp [hpk]
        rintro rfl
        exact hp hpk
      · simp only [hpk, if_false]
        exact ih

theorem Table.mem_keys_set {t : Table} {k : Key} {e : Entry} {n : Nat}
    (h : n ∈ (t.set k e).map fun p => p.1.toNat) : n = k.toNat ∨ n ∈ t.map fun p => p.1.toNat := by
  induction t with
  | nil => simpa [Table.set] using h
  | cons p t ih =>
    obtain ⟨k', e'⟩ := p
    simp only [Table.set] at h
    split at h
    · rename_i hk
      simp only [List.map_cons, List.mem_cons] at h ⊢
      tauto
    · split at h
      · simpa using h
      · simp only [List.map_cons, List.mem_cons] at h ⊢
        rcases h with h | h
        · exact .inr (.inl h)
        · rcases ih h with h | h
          · exact .inl h
          · exact .inr (.inr h)

/-- Writing a slot keeps the canonical form. -/
theorem Table.wf_set {t : Table} (h : t.wf) (k : Key) (e : Entry) : (t.set k e).wf := by
  induction t with
  | nil => simp [Table.set, Table.wf]
  | cons p t ih =>
    obtain ⟨k', e'⟩ := p
    simp only [Table.wf, List.map_cons, List.pairwise_cons] at h
    simp only [Table.set]
    split
    · rename_i hk
      subst hk
      simpa [Table.wf] using h
    · rename_i hk
      have hne : k.toNat ≠ k'.toNat := fun hh => hk (BitVec.eq_of_toNat_eq hh)
      split
      · rename_i hlt
        simp only [Table.wf, List.map_cons, List.pairwise_cons, List.mem_cons]
        refine ⟨?_, h⟩
        rintro n (rfl | hn)
        · exact hlt
        · exact hlt.trans (h.1 n hn)
      · rename_i hlt
        simp only [Table.wf, List.map_cons, List.pairwise_cons]
        refine ⟨fun n hn => ?_, ih h.2⟩
        rcases Table.mem_keys_set hn with rfl | hn
        · omega
        · exact h.1 n hn

/-- Removing a slot keeps the canonical form. -/
theorem Table.wf_erase {t : Table} (h : t.wf) (k : Key) : (t.erase k).wf :=
  List.Pairwise.sublist ((List.filter_sublist (l := t)).map _) h

/-- A table with no present slot is in canonical form. -/
theorem Table.wf_nil : Table.wf [] := List.Pairwise.nil

theorem Table.get_eq_none_iff (t : Table) (k : Key) : t.get k = none ↔ ∀ p ∈ t, p.1 ≠ k := by
  induction t with
  | nil => simp
  | cons p t ih =>
    rw [Table.get_cons]
    by_cases h : p.1 = k <;> simp [h, ih]

/-- Bit `k` of the VALID bits says whether slot `k` is present (44_demux.md R148). -/
theorem validBits_getLsbD (t : Table) (k : Key) : (validBits t).getLsbD k.toNat = (t.get k).isSome := by
  induction t with
  | nil => simp [validBits]
  | cons p t ih =>
    have hk : k.toNat < 256 := k.isLt
    have hstep : validBits (p :: t) = validBits t ||| BitVec.twoPow 256 p.1.toNat := rfl
    rw [hstep, BitVec.getLsbD_or, ih, BitVec.getLsbD_twoPow, Table.get_cons]
    by_cases h : p.1 = k
    · subst h
      simp [hk]
    · have : p.1.toNat ≠ k.toNat := fun hh => h (BitVec.eq_of_toNat_eq hh)
      simp [h, this]

end Sys2Proof.Machine
end

