-- ==== Sys2Proof/Machine/Asm.lean ====
section
/-! DEFINITION. The assembler syntax of commands and responses (30_encoding.md R73), as text a reader or a tool prints. -/

namespace Sys2Proof.Machine

/-- One hexadecimal digit, upper case as the spec writes it. -/
def hexDigit (n : Nat) : Char := if n < 10 then Char.ofNat (48 + n) else Char.ofNat (55 + n)

/-- "Bytes are written in hexadecimal": `0xNN` (R73). -/
def byteText (b : Byte) : String :=
  "0x" ++ String.ofList [hexDigit (b.toNat / 16), hexDigit (b.toNat % 16)]

/-- A DATA list; "`[]` is an empty DATA" (R73). -/
def dataText (s : Bytes) : String := "[" ++ String.intercalate ", " (s.map byteText) ++ "]"

/-- A command as R73 writes it: its mnemonic and its operands, the LEN field not written. -/
def instrText : Instr → String
  | .crc8 data => "CRC8 " ++ dataText data
  | .verify data => "VERIFY " ++ dataText data
  | .stuff data => "STUFF " ++ dataText data
  | .unstuff data => "UNSTUFF " ++ dataText data
  | .classify data => "CLASSIFY " ++ dataText data
  | .build idb data => "BUILD " ++ byteText idb ++ ", " ++ dataText data
  | .push data => "PUSH " ++ dataText data
  | .drain => "DRAIN"
  | .keys => "KEYS"
  | .fetch key => "FETCH " ++ byteText key
  | .status => "STATUS"
  | .reset => "RESET"

/-- The Status names of 10_state.md R27. -/
def statusText : Status → String
  | .ok => "OK"
  | .notInBuffer => "NOT_IN_BUFFER"
  | .incompleteCommunication => "INCOMPLETE_COMMUNICATION"
  | .transportDown => "TRANSPORT_DOWN"
  | .hostOldVersion => "HOST_OLD_VERSION"
  | .deviceOldVersion => "DEVICE_OLD_VERSION"
  | .deviceTimeout => "DEVICE_TIMEOUT"
  | .invalidResponse => "INVALID_RESPONSE"
  | .checksumFailed => "CHECKSUM_FAILED"

/-- The names of R21. -/
def pstateText : PState → String
  | .empty => "EMPTY"
  | .pending => "PENDING"

/-- The names of 60_exceptions.md R170. -/
def errText : ErrCode → String
  | .errOpcode => "ERR_OPCODE"
  | .errFormat => "ERR_FORMAT"
  | .errLength => "ERR_LENGTH"
  | .errIdentity => "ERR_IDENTITY"
  | .errQueueFull => "ERR_QUEUE_FULL"

/-- The keys of a bitmap, rising. -/
def bitmapKeys (m : BitVec 256) : List Key :=
  ((List.range 256).filter fun k => m.getLsbD k).map (BitVec.ofNat 8)

/-- A key set between braces (R73, format RK). -/
def keySetText (m : BitVec 256) : String :=
  String.singleton (Char.ofNat 0x7B) ++ String.intercalate ", " ((bitmapKeys m).map byteText) ++
    String.singleton (Char.ofNat 0x7D)

/-- A response as R73 writes it (log 17). -/
def responseText : Response → String
  | .ra => "-> ACK"
  | .rb b => "-> ACK " ++ byteText b
  | .rd data => "-> ACK " ++ dataText data
  | .rf st (some data) => "-> ACK " ++ statusText st ++ " " ++ dataText data
  | .rf st none => "-> ACK " ++ statusText st
  | .rk keys => "-> ACK " ++ keySetText keys
  | .rs ps plen qc => "-> ACK " ++ pstateText ps ++ " " ++ toString plen ++ " " ++ toString qc
  | .err rc => "-> " ++ errText rc

end Sys2Proof.Machine
end

