-- ==== Sys2Proof/Tests/Slice0.lean ====
section
/-! SUPPORT. Tests of single steps against the vectors of 95_test_vectors.md, words written out from 30_encoding.md R68 and R71, the
smoke test of WellFormed, and one witness for the hypotheses of every statement that has any. -/

namespace Sys2Proof.Tests

open Sys2Proof.Machine Sys2Proof.Claims

/-- A state with the default parameters, nothing sent yet and `ev` waiting at the port. -/
def st (ps : PState) (pbuf : Bytes) (table : Table) (cq : List Bytes) (ev : List PortEvent) : State :=
  ⟨Params.default, ps, pbuf, table, cq, ev, []⟩

/-- The state right after reset with one message at the port. -/
def resetWithMessage (m : Bytes) : State := st .empty [] [] [] [.command m]

/-- The responses sent by an outcome; `none` for a fault or a refusal. -/
def sent : Result → Option (List Bytes)
  | .next t => some t.outbox
  | .fault _ => none
  | .refused _ => none

/-- The next state of an outcome. -/
def after : Result → Option State
  | .next t => some t
  | .fault _ => none
  | .refused _ => none

/-- An outcome that is a next state is that next state. -/
theorem eq_next_of_after {r : Result} {t : State} (h : after r = some t) : r = .next t := by
  cases r <;> simp_all [after]

/-- The frame of V-BLD-1 (INIT). -/
def frameInit : Bytes := [0xFF#8, 0x01#8, 0x01#8, 0x00#8, 0x05#8, 0x5F#8, 0xEE#8]
/-- The frame of V-BLD-3 (COMM, sub-id 0x01). -/
def frameComm : Bytes := [0xAA#8, 0x01#8, 0x01#8, 0x00#8, 0x30#8, 0xC3#8, 0xEE#8]
/-- The frame of V-BLD-7 (COMM, sub-id 0xFF). -/
def frameCommFF : Bytes := [0xAA#8, 0x01#8, 0x7E#8, 0xFF#8, 0x09#8, 0xE0#8, 0xEE#8]
/-- The frame of V-BLD-8 (COMM, the reserved key). -/
def frameReserved : Bytes := [0xAA#8, 0x01#8, 0xDE#8, 0x05#8, 0x7F#8, 0xEE#8]
/-- The frame of V-BLD-10 (HEARTBEAT). -/
def frameBeat : Bytes := [0xBB#8, 0x01#8, 0x55#8, 0xBF#8, 0xEE#8]
/-- The candidate of V-DEC-1 (a COMM frame that unstuffs to four bytes). -/
def frameShort : Bytes := [0xAA#8, 0x01#8, 0x7E#8, 0x02#8, 0xEE#8]
/-- `n` bytes of 0x00. -/
def zeros (n : Nat) : Bytes := List.replicate n 0x00#8

/-! ### WellFormed: one ill-formed term for each check, which the check refuses (R69 (3), (4)) -/

theorem test_wf_crc8_too_long : Instr.wf Params.default (.crc8 (zeros 257)) = false := by
  simp only [Instr.wf, zeros, List.length_replicate]; decide
theorem test_wf_verify_too_long : Instr.wf Params.default (.verify (zeros 257)) = false := by
  simp only [Instr.wf, zeros, List.length_replicate]; decide
theorem test_wf_stuff_too_long : Instr.wf Params.default (.stuff (zeros 257)) = false := by
  simp only [Instr.wf, zeros, List.length_replicate]; decide
theorem test_wf_unstuff_too_long : Instr.wf Params.default (.unstuff (zeros 257)) = false := by
  simp only [Instr.wf, zeros, List.length_replicate]; decide
theorem test_wf_classify_too_long : Instr.wf Params.default (.classify (zeros 257)) = false := by
  simp only [Instr.wf, zeros, List.length_replicate]; decide
theorem test_wf_build_too_long : Instr.wf Params.default (.build 0xAA#8 (zeros 257)) = false := by
  simp only [Instr.wf, zeros, List.length_replicate]; decide
theorem test_wf_build_no_identity : Instr.wf Params.default (.build 0xDE#8 []) = false := by decide
theorem test_wf_push_too_long : Instr.wf Params.default (.push (zeros 257)) = false := by
  simp only [Instr.wf, zeros, List.length_replicate]; decide
theorem test_wf_longest : Instr.wf Params.default (.build 0xCC#8 (zeros 256)) = true := by
  simp only [Instr.wf, zeros, List.length_replicate]; decide

/-! ### Parameters: R5's formulas by hand, and a capacity a build sets itself -/

theorem test_params_smaller_build :
    ({ lossBound := 100, maxCandLen := 64 } : Params).pendCap = 164 ∧ ({ pendCap := 600 } : Params).payloadCap = 600 := by decide

/-! ### Decoding and encoding: a message of every command, written out from R68 and R71 -/

theorem test_decode_crc8 : decode [0x01#8, 0x00#8, 0x02#8, 0xFF#8, 0x01#8] = .ok (.crc8 [0xFF#8, 0x01#8]) := by decide
theorem test_decode_verify : decode [0x02#8, 0x00#8, 0x00#8] = .ok (.verify []) := by decide
theorem test_decode_stuff : decode [0x03#8, 0x00#8, 0x01#8, 0xAA#8] = .ok (.stuff [0xAA#8]) := by decide
theorem test_decode_unstuff : decode [0x04#8, 0x00#8, 0x01#8, 0x7E#8] = .ok (.unstuff [0x7E#8]) := by decide
theorem test_decode_classify : decode [0x05#8, 0x00#8, 0x01#8, 0xFF#8] = .ok (.classify [0xFF#8]) := by decide
/-- P1, step 1. -/
theorem test_decode_build :
    decode [0x06#8, 0xAA#8, 0x00#8, 0x06#8, 0x01#8, 0x01#8, 0x00#8, 0x01#8, 0x00#8, 0x30#8] =
      .ok (.build 0xAA#8 [0x01#8, 0x01#8, 0x00#8, 0x01#8, 0x00#8, 0x30#8]) := by decide
/-- P2, step 1. -/
theorem test_decode_push :
    decode [0x10#8, 0x00#8, 0x03#8, 0xFF#8, 0x01#8, 0x01#8] = .ok (.push [0xFF#8, 0x01#8, 0x01#8]) := by decide
theorem test_decode_drain : decode [0x11#8] = .ok .drain := by decide
theorem test_decode_keys : decode [0x12#8] = .ok .keys := by decide
theorem test_decode_fetch : decode [0x13#8, 0xDE#8] = .ok (.fetch 0xDE#8) := by decide
theorem test_decode_status : decode [0x14#8] = .ok .status := by decide
theorem test_decode_reset : decode [0x1F#8] = .ok .reset := by decide
/-- A LEN of 256 puts the high byte first (R44, R68). -/
theorem test_encode_high_byte_first : (encode (.push (zeros 256))).take 3 = [0x10#8, 0x01#8, 0x00#8] := by
  simp only [encode, encodeData, be16Bytes, zeros, List.length_replicate]; rfl
/-- V-CTL-3: the rest of the message is not examined. -/
theorem test_decode_illegal_opcode : decode [0x07#8, 0x00#8, 0x00#8] = .error .illegalOpcode := by decide
/-- V-CTL-5: L = 258 with one byte present. -/
theorem test_decode_short_data : decode [0x10#8, 0x01#8, 0x02#8, 0xAA#8] = .error .wrongLength := by decide
/-- The BUILD row of spec/opcode_table.json with operand bits zero. -/
theorem test_table_word_build : decodeTableWord 32 0x06 = some (.build 0x00#8 []) := by decide
/-- A table word whose LEN says two bytes is laid out with two bytes of zeros. -/
theorem test_table_word_push : decodeTableWord 24 0x020010 = some (.push [0x00#8, 0x00#8]) := by decide
theorem test_fetch_word_runs :
    sent (step (State.reset.withFetchWord 16 0x0113)) = some [[0x00#8, 0x01#8, 0x00#8, 0x00#8]] := by decide

/-! ### One step per test -/

/-- V-CRC-9. -/
theorem test_crc8_check_string : crc8 [0x31#8, 0x32#8, 0x33#8, 0x34#8, 0x35#8, 0x36#8, 0x37#8, 0x38#8, 0x39#8] = 0xF4#8 := by
  decide +kernel
/-- V-CRC-11. -/
theorem test_crc8_step :
    sent (step (resetWithMessage [0x01#8, 0x00#8, 0x05#8, 0xFF#8, 0x01#8, 0x01#8, 0x00#8, 0x05#8])) =
      some [[0x00#8, 0x5F#8]] := by decide +kernel
/-- V-VER-7: an escaped checksum. -/
theorem test_verify_escaped_checksum :
    sent (exec (.verify [0xCC#8, 0x02#8, 0x0D#8, 0x7E#8, 0x7E#8, 0xEE#8]) State.reset) = some [[0x00#8, 0x00#8]] := by
  decide +kernel
/-- V-VER-8: an escaped terminator. -/
theorem test_verify_escaped_terminator :
    sent (exec (.verify [0xFF#8, 0x01#8, 0x02#8, 0x7E#8, 0xEE#8]) State.reset) = some [[0x00#8, 0x08#8]] := by
  decide +kernel
/-- V-STF-2. -/
theorem test_stuff_step :
    sent (exec (.stuff [0x01#8, 0xAA#8, 0x7E#8, 0xDE#8]) State.reset) =
      some [[0x00#8, 0x00#8, 0x06#8, 0x01#8, 0x7E#8, 0xAA#8, 0x7E#8, 0x7E#8, 0xDE#8]] := by decide
/-- V-STF-2: 0x7E escapes 0xDE. -/
theorem test_unstuff_escape_any :
    sent (exec (.unstuff [0x01#8, 0xAA#8, 0x7E#8, 0xDE#8]) State.reset) =
      some [[0x00#8, 0x00#8, 0x03#8, 0x01#8, 0xAA#8, 0xDE#8]] := by decide
/-- V-STF-5: a pair, then a dangling escape. -/
theorem test_unstuff_dangling :
    sent (exec (.unstuff [0x7E#8, 0x7E#8, 0x7E#8]) State.reset) = some [[0x00#8, 0x00#8, 0x01#8, 0x7E#8]] := by
  decide
/-- V-CLS-2: length 4. -/
theorem test_classify_four_bytes :
    sent (exec (.classify [0xFF#8, 0x00#8, 0x00#8, 0xEE#8]) State.reset) = some [[0x00#8, 0x00#8]] := by decide
/-- V-CLS-5: an escaped last byte still counts. -/
theorem test_classify_raw_terminator :
    sent (exec (.classify [0xFF#8, 0x01#8, 0x02#8, 0x7E#8, 0xEE#8]) State.reset) = some [[0x00#8, 0x01#8]] := by
  decide
/-- V-BLD-6: a checksum that is an escape byte. -/
theorem test_build_escaped_checksum :
    sent (exec (.build 0xCC#8 [0x02#8, 0x0D#8]) State.reset) =
      some [[0x00#8, 0x00#8, 0x06#8, 0xCC#8, 0x02#8, 0x0D#8, 0x7E#8, 0x7E#8, 0xEE#8]] := by decide +kernel
/-- V-CTL-7. -/
theorem test_build_no_identity :
    sent (step (resetWithMessage [0x06#8, 0x01#8, 0x00#8, 0x01#8, 0x00#8])) = some [[0x04#8]] := by decide
/-- R25: the newest candidate is last. -/
theorem test_push_appends :
    after (exec (.push [0x02#8]) (st .empty [] [] [[0x01#8]] [])) = some { State.reset with cq := [[0x01#8], [0x02#8]], outbox := [[0x00#8]] } := by
  decide
/-- V-DMX-9. -/
theorem test_push_full_queue :
    sent (exec (.push [0x01#8]) (st .empty [] [] (List.replicate 100 [0x00#8]) [])) = some [[0x05#8]] := by decide
/-- V-DMX-7: the newer INIT wins over the older COMM with sub-id 0xFF. -/
theorem test_drain_newest_wins :
    after (exec .drain (st .empty [] [] [frameCommFF, frameInit] [])) =
      some { State.reset with
        table := [(0xFF#8, ⟨.ok, some [0xFF#8, 0x01#8, 0x01#8, 0x00#8, 0x05#8]⟩)], outbox := [[0x00#8]] } := by decide +kernel
/-- P5, step 6: the newest-first hazard. -/
theorem test_drain_reassembly_hazard :
    after (exec .drain (st .pending [0xFF#8, 0x01#8, 0x01#8] []
        [[0x00#8, 0x05#8, 0x5F#8, 0xEE#8], frameBeat, [0xCC#8, 0x01#8, 0x03#8, 0x12#8]] [])) =
      some { State.reset with
        table := [(0xBB#8, ⟨.ok, some [0x55#8]⟩), (0xFF#8, ⟨.checksumFailed, none⟩)], outbox := [[0x00#8]] } := by decide +kernel
/-- P1, step 4. -/
theorem test_keys_bitmap :
    sent (exec .keys (st .empty [] [(0x01#8, ⟨.ok, some [0x00#8, 0x30#8]⟩)] [] [])) =
      some [0x00#8 :: 0x02#8 :: zeros 31] := by decide
/-- P1, step 5: pop-once. -/
theorem test_fetch_pops :
    after (exec (.fetch 0x01#8) (st .empty [] [(0x01#8, ⟨.ok, some [0x00#8, 0x30#8]⟩)] [] [])) =
      some { State.reset with outbox := [[0x00#8, 0x00#8, 0x00#8, 0x02#8, 0x00#8, 0x30#8]] } := by decide
/-- V-DMX-5: a CHECKSUM_FAILED Entry has no payload. -/
theorem test_fetch_checksum_failed :
    sent (exec (.fetch 0x01#8) (st .empty [] [(0x01#8, ⟨.checksumFailed, none⟩)] [] [])) =
      some [[0x00#8, 0x08#8, 0x00#8, 0x00#8]] := by decide
/-- P5, step 8. -/
theorem test_status_pending :
    sent (step (st .pending [0x34#8, 0x93#8, 0xEE#8] [] [] [.command [0x14#8]])) =
      some [[0x00#8, 0x01#8, 0x00#8, 0x03#8, 0x00#8, 0x00#8]] := by decide
/-- V-CTL-10. -/
theorem test_reset_command :
    after (step (st .pending [0x34#8] [(0x01#8, ⟨.checksumFailed, none⟩)] [[0x00#8]] [.command [0x1F#8]])) =
      some { State.reset with outbox := [[0x00#8]] } := by decide
/-- R190: the reset input sends nothing. -/
theorem test_reset_input :
    after (step (st .pending [0x34#8] [(0x01#8, ⟨.checksumFailed, none⟩)] [[0x00#8]] [.resetInput])) =
      some State.reset := by decide
/-- V-CTL-1. -/
theorem test_empty_message : sent (step (resetWithMessage [])) = some [[0x02#8]] := by decide
/-- V-CTL-4. -/
theorem test_drain_two_bytes : sent (step (resetWithMessage [0x11#8, 0x00#8])) = some [[0x02#8]] := by decide
/-- V-CTL-6. -/
theorem test_too_long_data :
    sent (step (resetWithMessage ([0x01#8, 0x01#8, 0x01#8] ++ zeros 257))) = some [[0x03#8]] := by decide +kernel

/-! ### Assembler syntax and pseudo-operations -/

/-- R73's own spelling of a command and of responses (P1). -/
theorem test_instr_text : instrText (.build 0xAA#8 [0x01#8, 0x30#8]) = "BUILD 0xAA, [0x01, 0x30]" := by decide
theorem test_response_text : responseText (.rf .ok (some [0x00#8, 0x30#8])) = "-> ACK OK [0x00, 0x30]" := by decide
/-- E9: `send(COMM_type=1, [0x0001,0x0030], 2)` with `addr = 0x01`. -/
theorem test_pseudo_send :
    pseudoSend 0x01#8 0x01#8 [0x0001#16, 0x0030#16] =
      .build 0xAA#8 [0x01#8, 0x01#8, 0x00#8, 0x01#8, 0x00#8, 0x30#8] := by decide

/-! ### Witnesses: for each statement with hypotheses, concrete values that meet all of them together -/

theorem next_of_isSome {r : Result} (h : (after r).isSome = true) : ∃ t, r = .next t := by
  cases r <;> simp_all [after]

/-- A state that holds something in every element. -/
def busy (ev : List PortEvent) : State :=
  st .pending [0xFF#8, 0x01#8, 0x01#8] [(0x01#8, ⟨.ok, some [0x00#8, 0x30#8]⟩), (0x02#8, ⟨.checksumFailed, none⟩)]
    [[0x00#8, 0x05#8, 0x5F#8, 0xEE#8]] ev

theorem busy_entries {ev : List PortEvent} {k : Key} {e : Entry} (h : (busy ev).table.get k = some e) :
    e = ⟨.ok, some [0x00#8, 0x30#8]⟩ ∨ e = ⟨.checksumFailed, none⟩ := by
  simp only [busy, st, Table.get] at h
  split at h
  · exact .inl (Option.some.inj h).symm
  · split at h
    · exact .inr (Option.some.inj h).symm
    · cases h

theorem busy_inv (ev : List PortEvent) : (busy ev).Inv where
  capacities := (by decide : Params.default.roomy)
  emptySlot h := by simp [busy, st] at h
  slotBound _ := (by decide : 3 ≤ max 256 20)
  tableForm := (by decide : (busy []).table.wf)
  reservedAbsent := rfl
  entryLegal k e h := by rcases busy_entries h with rfl | rfl <;> simp [Entry.legal]
  payloadBound k e pl h hp := by
    rcases busy_entries h with rfl | rfl
    · obtain rfl := Option.some.inj hp
      exact (by decide : 2 ≤ Params.default.payloadCap)
    · cases hp
  queueBound := by simp [busy, st, Params.default]
  candBound := by simp [busy, st, Params.default]

theorem witness_InvariantKeptByEveryStep : ∃ s t : State, s.Inv ∧ step s = .next t :=
  have h := next_of_isSome (r := step (busy [.command [0x11#8]])) (by decide)
  h.elim fun t ht => ⟨_, t, busy_inv _, ht⟩

/-- Also for `ResetCommand`. -/
theorem witness_ResetInputAndResetCommandAgree :
    (busy [.resetInput, .command [0x14#8]]).inbox = .resetInput :: [.command [0x14#8]] := rfl

theorem witness_StepRunsDecodedCommand :
    (busy [.command [0x13#8, 0x01#8], .resetInput]).inbox = .command [0x13#8, 0x01#8] :: [.resetInput] ∧
      decode [0x13#8, 0x01#8] = .ok (.fetch 0x01#8) := ⟨rfl, rfl⟩

theorem witness_IdlePortStepChangesNothing : (busy []).inbox = [] := rfl

/-- For `EveryCommandGetsOneResponse` and `ErrorResponseChangesNoState`: V-CTL-4 on a busy block. -/
theorem witness_ErrorResponseChangesNoState :
    (busy [.command [0x11#8, 0x00#8]]).inbox = .command [0x11#8, 0x00#8] :: [] ∧
      step (busy [.command [0x11#8, 0x00#8]]) = .next { busy [] with outbox := [[0x02#8]] } ∧
      ({ busy [] with outbox := [[0x02#8]] } : State).outbox = (busy [.command [0x11#8, 0x00#8]]).outbox ++ [0x02#8 :: []] ∧
      (0x02#8 : Byte) ≠ 0x00#8 :=
  ⟨rfl, eq_next_of_after (by decide), rfl, by decide⟩

/-- Operands with a LEN field and that many bytes fit format D. -/
theorem fitsD_of (hi lo : Byte) (data : Bytes) (h : data.length = hi.toNat * 256 + lo.toNat) :
    fitsD (hi :: lo :: data) := ⟨hi, lo, data, rfl, h⟩

theorem not_fitsD_of (hi lo : Byte) (data : Bytes) (h : data.length ≠ hi.toNat * 256 + lo.toNat) :
    ¬ fitsD (hi :: lo :: data) := by
  rintro ⟨a, b, d, he, hd⟩
  injection he with h₁ h₂
  injection h₂ with h₂ h₃
  subst h₁ h₂ h₃
  exact h hd

theorem not_fitsD_short (tail : Bytes) (h : tail.length < 2) : ¬ fitsD tail := by
  rintro ⟨a, b, d, rfl, -⟩
  simp at h

/-- Format errors of every format, for `ErrorPriority` and the format clause of each command's statement: no operand byte, half a
LEN field, one byte too few, one too many. -/
theorem witness_format_errors :
    (¬ fitsD [] ∧ ¬ fitsD [0x00#8] ∧ ¬ fitsD [0x00#8, 0x02#8, 0xAA#8] ∧ ¬ fitsD [0x00#8, 0x00#8, 0xAA#8]) ∧
    (¬ fitsID [] ∧ ¬ fitsID [0xAA#8, 0x00#8] ∧ ¬ fitsID [0xAA#8, 0x00#8, 0x01#8]) ∧
    ([0x00#8] : Bytes) ≠ [] ∧ (¬ ∃ k : Key, ([] : Bytes) = [k]) ∧ (¬ ∃ k : Key, ([0x01#8, 0x02#8] : Bytes) = [k]) ∧
    (busy [.command (0x01#8 :: [0x00#8])]).inbox = .command (0x01#8 :: [0x00#8]) :: [] := by
  refine ⟨⟨?_, ?_, ?_, ?_⟩, ⟨?_, ?_, ?_⟩, by decide, by simp, by simp, rfl⟩
  · exact not_fitsD_short _ (by decide)
  · exact not_fitsD_short _ (by decide)
  · exact not_fitsD_of _ _ _ (by decide)
  · exact not_fitsD_of _ _ _ (by decide)
  · rintro ⟨b, r, h, -⟩
    cases h
  · rintro ⟨b, r, h, hf⟩
    injection h with _ h
    subst h
    exact not_fitsD_short _ (by decide) hf
  · rintro ⟨b, r, h, hf⟩
    injection h with _ h
    subst h
    exact not_fitsD_of _ _ _ (by decide) hf

/-- DATA that fits its LEN field, at 0, 256 and 65535 bytes. -/
theorem witness_data_fits :
    ([] : Bytes).length = (0x00#8 : Byte).toNat * 256 + (0x00#8 : Byte).toNat ∧
    (zeros 256).length = (0x01#8 : Byte).toNat * 256 + (0x00#8 : Byte).toNat ∧
    (zeros 65535).length = (0xFF#8 : Byte).toNat * 256 + (0xFF#8 : Byte).toNat := by
  simp only [zeros, List.length_replicate]
  decide

/-- `MAX_CAND_LEN` from both sides, for every command with DATA and for `PushCommand`, `BuildCommand` and `ErrorPriority`. -/
theorem witness_length_boundary :
    (zeros 256).length ≤ (busy []).params.maxCandLen ∧ (busy []).params.maxCandLen < (zeros 257).length := by
  simp only [zeros, List.length_replicate]
  decide

/-- One clause of `ErrorPriority` after another: not in the map; in the map and not fitting; fitting and too long; fitting and no
identity; fitting and a full queue; none of these. -/
theorem witness_ErrorPriority :
    ((0x07#8 : Byte) ∉ opcodes) ∧
    ((0x06#8 : Byte) ∈ opcodes ∧ ¬ fits 0x06#8 []) ∧
    ((0x10#8 : Byte) ∈ opcodes ∧ fits 0x10#8 (0x01#8 :: 0x01#8 :: zeros 257) ∧
      (busy []).params.maxCandLen < (dataOperand 0x10#8 (0x01#8 :: 0x01#8 :: zeros 257)).length) ∧
    (fits 0x06#8 [0xDE#8, 0x00#8, 0x00#8] ∧
      (dataOperand 0x06#8 [0xDE#8, 0x00#8, 0x00#8]).length ≤ (busy []).params.maxCandLen ∧
      (0x06#8 : Byte) = 0x06#8 ∧ (([0xDE#8, 0x00#8, 0x00#8] : Bytes).head?.any isIdentity) = false) ∧
    (fits 0x10#8 [0x00#8, 0x00#8] ∧ (dataOperand 0x10#8 [0x00#8, 0x00#8]).length ≤ (busy []).params.maxCandLen ∧
      (st .empty [] [] (List.replicate 100 []) []).cq.length = (st .empty [] [] (List.replicate 100 []) []).params.maxCands) ∧
    (fits 0x10#8 (0x01#8 :: 0x00#8 :: zeros 256) ∧
      (dataOperand 0x10#8 (0x01#8 :: 0x00#8 :: zeros 256)).length ≤ (busy []).params.maxCandLen ∧
      ¬ ((0x10#8 : Byte) = 0x10#8 ∧ (busy []).cq.length = (busy []).params.maxCands)) := by
  have hD : (0x10#8 : Byte) ∈ opcodesD := by decide
  have hFit : ∀ tail, fitsD tail → fits 0x10#8 tail := fun tail h =>
    ⟨fun _ => h, fun h' => absurd h' (by decide), fun h' => absurd h' (by decide), fun h' => absurd h' (by decide)⟩
  refine ⟨by decide, ⟨by decide, fun h => ?_⟩, ⟨by decide, hFit _ (fitsD_of _ _ _ ?_), ?_⟩, ⟨⟨?_, ?_, fun _ => ?_, ?_⟩, ?_, rfl, ?_⟩,
    ⟨hFit _ (fitsD_of _ _ _ (by decide)), by decide, by simp [st, Params.default]⟩, hFit _ (fitsD_of _ _ _ ?_), ?_, by decide⟩
  · obtain ⟨b, r, hr, -⟩ := h.2.2.1 rfl
    cases hr
  · simp only [zeros, List.length_replicate]
    decide
  · simp only [dataOperand, if_pos hD, List.drop_succ_cons, List.drop_zero, zeros, List.length_replicate]
    decide
  · exact fun h => absurd h (by decide)
  · exact fun h => absurd h (by decide)
  · exact ⟨0xDE#8, _, rfl, fitsD_of _ _ _ (by decide)⟩
  · exact fun h => absurd h (by decide)
  · decide
  · decide
  · simp only [zeros, List.length_replicate]
    decide
  · simp only [dataOperand, if_pos hD, List.drop_succ_cons, List.drop_zero, zeros, List.length_replicate]
    decide

/-- The ends of each range of `IllegalOpcodeAnswered`. -/
theorem witness_IllegalOpcodeAnswered :
    ∀ opc ∈ [0x00#8, 0x07#8, 0x0F#8, 0x15#8, 0x1E#8, 0x20#8, 0xFF#8],
      opc.toNat = 0x00 ∨ (0x07 ≤ opc.toNat ∧ opc.toNat ≤ 0x0F) ∨ (0x15 ≤ opc.toNat ∧ opc.toNat ≤ 0x1E) ∨
        (0x20 ≤ opc.toNat ∧ opc.toNat ≤ 0xFF) := by decide

theorem witness_DecodeOfEncode :
    Instr.encodable (.build 0x01#8 (zeros 65535)) = true ∧ Params.default.ok ∧
      Instr.wf Params.default (.build 0xCC#8 (zeros 256)) = true :=
  ⟨by simp only [Instr.encodable, zeros, List.length_replicate]; decide, by decide, test_wf_longest⟩

theorem witness_EncodeOfDecode : decode [0x06#8, 0xDE#8, 0x00#8, 0x01#8, 0x7E#8] = .ok (.build 0xDE#8 [0x7E#8]) := by
  decide

theorem witness_ResponseFormats :
    ∃ (s t : State) (i : Instr), s.params.ok ∧ s.params.maxCands ≤ 65535 ∧ s.Inv ∧ i.wf s.params = true ∧
      exec i s = .next t :=
  have h := next_of_isSome (r := exec (.fetch 0x01#8) (busy [])) (by decide)
  h.elim fun t ht => ⟨busy [], t, .fetch 0x01#8, by decide, by decide, busy_inv _, rfl, ht⟩

theorem witness_VerifyComparesUnstuffedChecksum :
    (unstuff [0x7E#8, 0x00#8]).length < 2 ∧ unstuff [0x00#8, 0x00#8] = [] ++ [0x00#8, 0x00#8] ∧
      isComplete frameBeat = true := by decide

theorem witness_VerifyCommand :
    danglingFree [0xCC#8, 0x02#8, 0x0D#8] = true ∧ unstuff [0xCC#8, 0x02#8, 0x0D#8] = [0xCC#8, 0x02#8] ++ [0x0D#8] ∧
    (danglingFree [0x7E#8, 0x00#8] = true ∧ unstuff [0x7E#8, 0x00#8] = [] ++ [crc8 []] ∧ (0xEE#8 : Byte) ≠ 0x7E#8) := by
  decide

theorem witness_UnstuffKeepsTheByteAfterAnEscape : (0x7F#8 : Byte) ≠ 0x7E#8 := by decide

/-- For `BuiltFrameUnstuffsAndVerifies`, `BuiltFrameCompleteness` and `OnlyTheLastTerminatorIsUnescaped`. -/
theorem witness_BuiltFrames :
    (∀ id ∈ [0xFF#8, 0xAA#8, 0xBB#8, 0xCC#8], isIdentity id = true) ∧ 2 ≤ ([0x02#8, 0x0D#8] : Bytes).length ∧
      (0x01#8 : Byte) ∈ unescaped (stuff [0x7E#8, 0x01#8]) := by decide

theorem witness_StuffCommand :
    (∀ b ∈ ([0xFF#8, 0xEE#8, 0x7E#8] : Bytes), isReserved b = true) ∧ isIdentity 0xFF#8 = true := by decide

theorem witness_BuildCommand :
    isIdentity 0xBB#8 = true ∧ isIdentity 0xDE#8 = false ∧ isReserved (crc8 ([0xCC#8] ++ [0x02#8, 0x0D#8])) = true := by
  decide +kernel

theorem witness_ClassifierLaws :
    ([0xFF#8, 0x00#8, 0x00#8, 0xEE#8] : Bytes).length ≤ 4 ∧ isComplete frameBeat = true ∧
      ([0xFF#8, 0x01#8] ++ [0x01#8] : Bytes) = [0xFF#8] ++ [0x01#8, 0x01#8] := by decide

theorem witness_FirstFragmentIsKept :
    isComplete [] = false ∧ isComplete (zeros 25) = false ∧ State.reset.startCycle.pstate = .empty ∧
      (st .empty [] [] [zeros 25] []).cq = [zeros 25] ∧ (st .empty [] [] [zeros 25] []).pstate = .empty := by decide

/-- P2 (filed) and V-RSM-9 (dropped). -/
theorem witness_RebuiltFrameIsFiled :
    (isComplete [0x00#8, 0x05#8, 0x5F#8, 0xEE#8] = false ∧ (busy []).pstate = .pending ∧
      (busy []).cq = [[0x00#8, 0x05#8, 0x5F#8, 0xEE#8]] ∧
      isComplete ((busy []).pbuf ++ [0x00#8, 0x05#8, 0x5F#8, 0xEE#8]) = true ∧
      decodeFrame ((busy []).pbuf ++ [0x00#8, 0x05#8, 0x5F#8, 0xEE#8]) =
        .entry 0xFF#8 ⟨.ok, some [0xFF#8, 0x01#8, 0x01#8, 0x00#8, 0x05#8]⟩) ∧
    (isComplete [0x7E#8, 0x02#8, 0xEE#8] = false ∧ isComplete ([0xAA#8, 0x01#8] ++ [0x7E#8, 0x02#8, 0xEE#8]) = true ∧
      decodeFrame ([0xAA#8, 0x01#8] ++ [0x7E#8, 0x02#8, 0xEE#8]) = .drop) := by decide +kernel

/-- V-RSM-3 (20 bytes are kept) and V-RSM-4 (21 are not). -/
theorem witness_LossBoundDiscards :
    (isComplete (zeros 10) = false ∧ isComplete (zeros 10 ++ zeros 10) = false ∧
      (zeros 10 ++ zeros 10).length ≤ Params.default.lossBound) ∧
    (isComplete [0x00#8] = false ∧ isComplete (zeros 20 ++ [0x00#8]) = false ∧
      Params.default.lossBound < (zeros 20 ++ [0x00#8]).length) ∧
    (st .pending (zeros 20) [] [[0x00#8]] []).pstate = .pending := by decide

/-- E6. -/
theorem witness_TwoPartReassembly :
    let a : Bytes := [0xFF#8, 0x01#8, 0x01#8]
    let b : Bytes := [0x00#8, 0x05#8, 0x5F#8, 0xEE#8]
    (st .empty [] [] [a] []).pstate = .empty ∧ (st .empty [] [] [a] []).cq = [a] ∧ isComplete a = false ∧
      isComplete b = false ∧ isComplete (a ++ b) = true ∧ b.length ≤ Params.default.maxCandLen ∧
      Params.default.maxCands ≠ 0 ∧
      decodeFrame (a ++ b) = .entry 0xFF#8 ⟨.ok, some [0xFF#8, 0x01#8, 0x01#8, 0x00#8, 0x05#8]⟩ := by decide +kernel

/-- P4: from 18 pending bytes, two fragments of one byte and a third of one byte pass LOSS_BOUND. -/
theorem witness_NeverCompletingRunEmptiesTheSlot :
    let s := st .pending (zeros 18) [] [zeros 1, zeros 1, zeros 1] []
    s.pstate = .pending ∧ s.cq.reverse = [zeros 1, zeros 1] ++ [zeros 1] ∧ (∀ c ∈ s.cq, isComplete c = false) ∧
      (∀ n, isComplete (s.pbuf ++ (s.cq.reverse.take n).flatten) = false) ∧
      (s.pbuf ++ [zeros 1, zeros 1].flatten).length ≤ s.params.lossBound ∧
      s.params.lossBound < (s.pbuf ++ [zeros 1, zeros 1].flatten ++ zeros 1).length := by
  refine ⟨rfl, rfl, by decide, fun n => ?_, by decide, by decide⟩
  match n with
  | 0 => decide
  | 1 => decide
  | 2 => decide
  | n + 3 => simp [st, zeros, isComplete, isIdentity, identitySet, wire]

theorem witness_NewestFirstConcatenation :
    (isComplete [0x01#8] = false ∧ isComplete [0xFF#8] = false ∧ isComplete ([0xFF#8] ++ [0x01#8]) = false ∧
      ([0xFF#8] ++ [0x01#8] : Bytes).length ≤ Params.default.lossBound) ∧
    (let s := st .pending (zeros 18) [] [zeros 1, zeros 1] []
     s.pstate = .pending ∧ s.cq = [zeros 1, zeros 1] ∧ isComplete (zeros 1) = false ∧ isComplete (s.pbuf ++ zeros 1) = false ∧
      isComplete (s.pbuf ++ zeros 1 ++ zeros 1) = false ∧ (s.pbuf ++ zeros 1 ++ zeros 1).length ≤ s.params.lossBound) := by
  decide

/-- Every arm: INIT, HEARTBEAT, COMM with a key, COMM with the reserved key, and a COMM frame too short (n = 4). -/
theorem witness_FrameDecoding :
    (isComplete frameInit = true ∧ frameInit.head? = some 0xFF#8) ∧
    (isComplete frameBeat = true ∧ frameBeat.head? = some 0xBB#8) ∧
    (isComplete frameComm = true ∧ frameComm.head? = some 0xAA#8 ∧ 5 ≤ (unstuff frameComm).length ∧
      (unstuff frameComm)[2]? = some 0x01#8 ∧ (0x01#8 : Byte) ≠ 0xDE#8) ∧
    (isComplete frameReserved = true ∧ (unstuff frameReserved)[2]? = some 0xDE#8) ∧
    (isComplete frameShort = true ∧ (unstuff frameShort).length < 5 ∧ decodeFrame frameShort = .drop) ∧
    (isComplete [0xCC#8, 0x01#8, 0x02#8, 0x00#8, 0xEE#8] = true ∧
      5 ≤ (unstuff [0xCC#8, 0x01#8, 0x02#8, 0x00#8, 0xEE#8]).length) := by decide

theorem witness_FilingUnderTheSeenSet :
    (0x01#8 : Key) ∈ (⟨.empty, [], [], [0x01#8]⟩ : Cycle).seen ∧ (0x02#8 : Key) ∉ (⟨.empty, [], [], [0x01#8]⟩ : Cycle).seen := by
  decide

/-- For `PushCommand`: a queue with room and a full one. -/
theorem witness_PushCommand :
    (st .empty [] [] (List.replicate 99 []) []).cq.length ≠ (st .empty [] [] (List.replicate 99 []) []).params.maxCands ∧
    (st .empty [] [] (List.replicate 100 []) []).cq.length = (st .empty [] [] (List.replicate 100 []) []).params.maxCands := by
  simp [st, Params.default]

/-- For `DrainCommand` and `LatestWins`: V-DMX-7, both frames under the key 0xFF, and an older and a newer candidate around one. -/
theorem witness_DrainCommand :
    State.reset.cq = [] ∧
    ((st .empty [] [] [frameCommFF, frameInit] []).cq = [frameCommFF, frameInit] ∧ isComplete frameCommFF = true ∧
      isComplete frameInit = true ∧ decodeFrame frameCommFF = .entry 0xFF#8 ⟨.ok, some [0x09#8]⟩ ∧
      decodeFrame frameInit = .entry 0xFF#8 ⟨.ok, some [0xFF#8, 0x01#8, 0x01#8, 0x00#8, 0x05#8]⟩) := by decide +kernel

theorem witness_LatestWins :
    (st .empty [] [] [frameCommFF, frameInit, frameBeat] []).cq = [frameCommFF] ++ [frameInit] ++ [frameBeat] ∧
    isComplete frameInit = true ∧
    decodeFrame frameInit = .entry 0xFF#8 ⟨.ok, some [0xFF#8, 0x01#8, 0x01#8, 0x00#8, 0x05#8]⟩ ∧
    (∀ x ∈ [frameBeat], isComplete x = true ∧ ∀ e', decodeFrame x ≠ .entry 0xFF#8 e') := by
  refine ⟨rfl, by decide, by decide +kernel, fun x hx => ?_⟩
  obtain rfl := List.mem_singleton.1 hx
  have h : decodeFrame frameBeat = .entry 0xBB#8 ⟨.ok, some [0x55#8]⟩ := by decide +kernel
  exact ⟨by decide, fun e' he => by rw [h] at he; injection he with hk; exact absurd hk (by decide)⟩

/-- For `CompleteCandidatesLeaveThePendingSlot`, with a key no candidate decodes to. -/
theorem witness_CompleteCandidatesLeaveThePendingSlot :
    (∀ c ∈ (st .pending [0xFF#8] [] [frameBeat] []).cq, isComplete c = true) ∧
    (∀ c ∈ (st .pending [0xFF#8] [] [frameBeat] []).cq, ∀ e, decodeFrame c ≠ .entry 0x01#8 e) := by
  refine ⟨by decide, fun x hx e he => ?_⟩
  obtain rfl := List.mem_singleton.1 hx
  have h : decodeFrame frameBeat = .entry 0xBB#8 ⟨.ok, some [0x55#8]⟩ := by decide +kernel
  rw [h] at he
  injection he with hk
  exact absurd hk (by decide)

/-- For `DrainFilesAtMostTheQueue`, `EntriesPersist` and `CommandFrames`: a DRAIN, a FETCH and a RESET of a busy block, and a
PUSH on it. -/
theorem witness_CommandFrames :
    (∃ t, exec .drain (busy []) = .next t) ∧ (∃ t, exec (.fetch 0x01#8) (busy []) = .next t) ∧
    (∃ t, exec .reset (busy []) = .next t) ∧ (∃ t, exec (.push [0x00#8]) (busy []) = .next t) ∧
    (∃ t, exec .keys (busy []) = .next t) ∧
    (Instr.fetch 0x02#8 ≠ .drain ∧ Instr.fetch 0x02#8 ≠ .reset ∧ Instr.fetch 0x02#8 ≠ .fetch 0x01#8) := by
  refine ⟨next_of_isSome ?_, next_of_isSome ?_, next_of_isSome ?_, next_of_isSome ?_, next_of_isSome ?_, by decide⟩ <;>
    decide

theorem witness_BuiltFramesDecode :
    isComplete (build 0xFF#8 [0x01#8, 0x02#8, 0x03#8, 0xFF#8]) = true ∧ isComplete (build 0xBB#8 [0x0A#8]) = true ∧
    (isComplete (build 0xCC#8 [0x02#8, 0x0D#8]) = true ∧ 2 ≤ ([0x02#8, 0x0D#8] : Bytes).length ∧
      ([0x02#8, 0x0D#8] : Bytes)[1]? = some 0x0D#8 ∧ (0x0D#8 : Byte) ≠ 0xDE#8) := by decide +kernel

/-- For `KeysCommand` and `FetchCommand`: a state with the invariants, a key with a payload, one without and one absent. -/
theorem witness_FetchCommand :
    (busy []).Inv ∧
    ((busy []).table.get 0x01#8 = some ⟨.ok, some [0x00#8, 0x30#8]⟩ ∧
      (⟨.ok, some [0x00#8, 0x30#8]⟩ : Entry).payload = some [0x00#8, 0x30#8]) ∧
    ((busy []).table.get 0x02#8 = some ⟨.checksumFailed, none⟩ ∧ (⟨.checksumFailed, none⟩ : Entry).payload = none) ∧
    (busy []).table.get 0xDE#8 = none ∧ (0x02#8 : Key) ≠ 0x01#8 ∧
    ((busy []).table.get 0xFF#8 = none ∧ ∃ t, exec .drain (busy []) = .next t) :=
  ⟨busy_inv _, by decide, by decide, by decide, by decide, by decide, next_of_isSome (by decide)⟩

/-- For `StatusCommand`: both ends of the 16-bit range. -/
theorem witness_StatusCommand : 0 ≤ 65535 ∧ 65535 ≤ 65535 := by decide

/-- For `InvariantAtReset`: the smallest capacities a build with the other defaults can set. -/
theorem witness_InvariantAtReset : ({ pendCap := 512, payloadCap := 512 } : Params).roomy := by decide

/-- For `ConcatenationsFitThePendingSlot`: the older of two candidates, after the newer one. -/
theorem witness_ConcatenationsFitThePendingSlot :
    (busy []).Inv ∧ (busy []).cq = [] ++ [[0x00#8, 0x05#8, 0x5F#8, 0xEE#8]] ++ [] ∧
      drainLoop (busy []).params.lossBound [] (busy []).startCycle = .ok (busy []).startCycle := ⟨busy_inv _, rfl, rfl⟩

theorem witness_PureCommandsLeaveTheState : isPure (.crc8 []) ∧ isPure .keys ∧ isPure .status := ⟨trivial, trivial, trivial⟩

end Sys2Proof.Tests
end

section
/-! SUPPORT. Encoding proofs: the decoder gives only commands that a message can carry (30_encoding.md R67, R68). -/

namespace Sys2Proof

theorem decodeData_length_le {rest data : Bytes} (h : decodeData rest = .ok data) : data.length ≤ 65535 := by
  obtain ⟨hi, lo, -, hlen⟩ := decodeData_eq_ok.1 h
  have := be16_lt hi lo
  omega

/-- Every command the form can make of operands of its format is one that a message can carry. -/
def Form.MakesEncodable : Form → Prop
  | .n i => i.encodable = true
  | .k mk => ∀ key, (mk key).encodable = true
  | .d mk => ∀ data, data.length ≤ 65535 → (mk data).encodable = true
  | .id mk => ∀ idb data, data.length ≤ 65535 → (mk idb data).encodable = true

theorem opcodeTable_makesEncodable : ∀ r ∈ opcodeTable, r.form.MakesEncodable := by
  simp [opcodeTable, Form.MakesEncodable, Instr.encodable]

theorem formOf_mem {opc : Byte} {form : Form} (h : formOf opc = some form) : ⟨opc, form⟩ ∈ opcodeTable := by
  obtain ⟨r, hr, rfl⟩ := Option.map_eq_some_iff.1 h
  obtain rfl : r.opc = opc := by simpa using List.find?_some hr
  exact List.mem_of_find?_eq_some hr

theorem map_decodeData_eq_ok {mk : Bytes → Instr} {rest : Bytes} {i : Instr} :
    (decodeData rest).map mk = .ok i ↔ ∃ data, decodeData rest = .ok data ∧ mk data = i := by
  cases decodeData rest <;> simp [Except.map]

theorem decodeForm_encodable {form : Form} (hform : form.MakesEncodable) {rest : Bytes} {i : Instr}
    (h : decodeForm form rest = .ok i) : i.encodable = true := by
  cases form with
  | n j =>
    cases rest with
    | nil => cases h; exact hform
    | cons => cases h
  | k mk =>
    match rest with
    | [] => cases h
    | [key] => cases h; exact hform key
    | _ :: _ :: _ => cases h
  | d mk =>
    obtain ⟨data, hdata, rfl⟩ := map_decodeData_eq_ok.1 h
    exact hform data (decodeData_length_le hdata)
  | id mk =>
    cases rest with
    | nil => cases h
    | cons idb rest =>
      obtain ⟨data, hdata, rfl⟩ := map_decodeData_eq_ok.1 h
      exact hform idb data (decodeData_length_le hdata)

theorem decode_of_formOf {opc : Byte} {form : Form} (h : formOf opc = some form) (rest : Bytes) :
    decode (opc :: rest) = decodeForm form rest := by
  simp [decode, h]

theorem decode_of_formOf_none {opc : Byte} (h : formOf opc = none) (rest : Bytes) :
    decode (opc :: rest) = .error .illegalOpcode := by
  simp [decode, h]

theorem decode_encodable {m : Bytes} {i : Instr} (h : decode m = .ok i) : i.encodable = true := by
  cases m with
  | nil => cases h
  | cons opc rest =>
    cases hform : formOf opc with
    | none =>
      rw [decode_of_formOf_none hform] at h
      cases h
    | some form =>
      rw [decode_of_formOf hform] at h
      exact decodeForm_encodable (opcodeTable_makesEncodable _ (formOf_mem hform)) h

end Sys2Proof
end

section
/-! SUPPORT. Response proofs: every command completes with exactly one response, an error response changing nothing else
(00_scope.md R9, 60_exceptions.md R171, R174). -/

namespace Sys2Proof.Machine

theorem ErrCode.byte_toNat_le (rc : ErrCode) : rc.byte.toNat ≤ 5 := by
  cases rc <;> decide

/-- A response is an error code alone, or begins with ACK. -/
theorem Response.encode_cases (r : Response) :
    (∃ rc, r = .err rc) ∨ ∃ body, r.encode = ackByte :: body := by
  cases r with
  | err rc => exact .inl ⟨rc, rfl⟩
  | rf status payload => cases payload <;> exact .inr ⟨_, rfl⟩
  | _ => exact .inr ⟨_, rfl⟩

/-- `out` is the completion of a command begun in `s`: a next state with one response added, the parameters and the port
otherwise those of `s`. An error response is the whole effect. -/
def RespondsOnce (s : State) (out : Result) : Prop :=
  ∃ u r, out = .next (u.respond r) ∧ u.params = s.params ∧ u.inbox = s.inbox ∧ u.outbox = s.outbox ∧
    ∀ rc, r = .err rc → u = s

theorem respondsOnce_respond (s : State) (r : Response) : RespondsOnce s (.next (s.respond r)) :=
  ⟨s, r, rfl, rfl, rfl, rfl, fun _ _ => rfl⟩

theorem respondsOnce_refuse (rc : ErrCode) (s : State) : RespondsOnce s (refuse rc s) :=
  respondsOnce_respond s (.err rc)

theorem respondsOnce_checkLength {s : State} {go : Result} (h : RespondsOnce s go) (data : Bytes) :
    RespondsOnce s (checkLength data s go) := by
  rcases Nat.lt_or_ge s.params.maxCandLen data.length with hlen | hlen
  · rw [checkLength_of_gt hlen]
    exact respondsOnce_refuse _ s
  · rwa [checkLength_of_le hlen]

theorem respondsOnce_checkIdentity {s : State} {go : Result} (h : RespondsOnce s go) (idb : Byte) :
    RespondsOnce s (checkIdentity idb s go) := by
  cases hid : isIdentity idb with
  | true => rwa [checkIdentity_of_mem hid]
  | false =>
    rw [checkIdentity_of_not_mem hid]
    exact respondsOnce_refuse _ s

theorem respondsOnce_checkQueue {s : State} {go : Result} (h : RespondsOnce s go) :
    RespondsOnce s (checkQueue s go) := by
  by_cases hfull : s.cq.length = s.params.maxCands
  · rw [checkQueue_of_eq hfull]
    exact respondsOnce_refuse _ s
  · rwa [checkQueue_of_ne hfull]

theorem respondsOnce_answerData (f : Bytes → Response) (data : Bytes) (s : State) :
    RespondsOnce s (answerData f data s) :=
  respondsOnce_checkLength (respondsOnce_respond s (f data)) data

theorem respondsOnce_execBuild (idb : Byte) (data : Bytes) (s : State) : RespondsOnce s (execBuild idb data s) :=
  respondsOnce_checkLength (respondsOnce_checkIdentity (respondsOnce_respond s _) idb) data

theorem respondsOnce_execPush (data : Bytes) (s : State) : RespondsOnce s (execPush data s) := by
  have hqueued : RespondsOnce s (.next ((s.withQueue (s.cq ++ [data])).respond .ra)) :=
    ⟨s.withQueue (s.cq ++ [data]), .ra, rfl, rfl, rfl, rfl, nofun⟩
  exact respondsOnce_checkLength (respondsOnce_checkQueue hqueued) data

/-- The loop of a DRAIN never faults: no state reaches the one fault of the model (93_implementation_defined.md I1). -/
theorem drainLoop_ok (lb : Nat) (cs : List Bytes) (cy : Cycle) : ∃ cy', drainLoop lb cs cy = .ok cy' := by
  obtain ⟨cy', h, -⟩ := drainLoop_induct (fun _ => True) (cs := cs) (fun _ _ _ _ _ _ => trivial) cy trivial
  exact ⟨cy', h⟩

theorem respondsOnce_execDrain (s : State) : RespondsOnce s (execDrain s) := by
  obtain ⟨cy, h⟩ := drainLoop_ok s.params.lossBound s.cq.reverse s.startCycle
  exact ⟨s.endCycle cy, .ra, execDrain_of_loop h, rfl, rfl, rfl, nofun⟩

theorem execFetch_of_some {s : State} {key : Key} {e : Entry} (h : s.table.get key = some e) :
    execFetch key s = .next ((s.withTable (s.table.erase key)).respond (.rf e.status e.payload)) := by
  simp [execFetch, h]

theorem execFetch_of_none {s : State} {key : Key} (h : s.table.get key = none) :
    execFetch key s = .next (s.respond (.rf .notInBuffer none)) := by
  simp [execFetch, h]

theorem respondsOnce_execFetch (key : Key) (s : State) : RespondsOnce s (execFetch key s) := by
  cases h : s.table.get key with
  | some e =>
    exact ⟨s.withTable (s.table.erase key), .rf e.status e.payload, execFetch_of_some h, rfl, rfl, rfl, nofun⟩
  | none =>
    rw [execFetch_of_none h]
    exact respondsOnce_respond s _

theorem respondsOnce_execReset (s : State) : RespondsOnce s (execReset s) :=
  ⟨s.clearElements, .ra, rfl, rfl, rfl, rfl, nofun⟩

/-- Every command, with any operands and in any state, completes with exactly one response. -/
theorem respondsOnce_exec (i : Instr) (s : State) : RespondsOnce s (exec i s) := by
  cases i with
  | crc8 data => exact respondsOnce_answerData (fun d => .rb (crc8 d)) data s
  | verify data => exact respondsOnce_answerData (fun d => .rb (verify d).byte) data s
  | stuff data => exact respondsOnce_answerData (fun d => .rd (stuff d)) data s
  | unstuff data => exact respondsOnce_answerData (fun d => .rd (unstuff d)) data s
  | classify data => exact respondsOnce_answerData (fun d => .rb (boolByte (isComplete d))) data s
  | build idb data => exact respondsOnce_execBuild idb data s
  | push data => exact respondsOnce_execPush data s
  | drain => exact respondsOnce_execDrain s
  | keys => exact respondsOnce_respond s _
  | fetch key => exact respondsOnce_execFetch key s
  | status => exact respondsOnce_respond s _
  | reset => exact respondsOnce_execReset s

end Sys2Proof.Machine
end

section
/-! SUPPORT. Step proofs: what a step is for each kind of next event at the port (00_scope.md R9). -/

namespace Sys2Proof.Machine

theorem step_of_idle {s : State} (h : s.inbox = []) : step s = .next s := by
  simp [step, takeEvent_eq_none.2 h]

theorem step_of_resetInput {s : State} {rest : List PortEvent} (h : s.inbox = .resetInput :: rest) :
    step s = .next { s with inbox := rest }.clearElements := by
  simp [step, takeEvent_eq_some.2 ⟨rest, h, rfl⟩]

theorem step_of_decode_ok {s : State} {m : Bytes} {rest : List PortEvent} {i : Instr}
    (h : s.inbox = .command m :: rest) (hm : decode m = .ok i) : step s = exec i { s with inbox := rest } := by
  simp [step, takeEvent_eq_some.2 ⟨rest, h, rfl⟩, hm]

theorem step_of_decode_error {s : State} {m : Bytes} {rest : List PortEvent} {e : DecodeError}
    (h : s.inbox = .command m :: rest) (hm : decode m = .error e) :
    step s = refuse (rejectCode e) { s with inbox := rest } := by
  simp [step, takeEvent_eq_some.2 ⟨rest, h, rfl⟩, hm, rejectMessage]

/-- A step on a command message of any bytes takes it and completes with exactly one response. -/
theorem respondsOnce_step {s : State} {m : Bytes} {rest : List PortEvent} (h : s.inbox = .command m :: rest) :
    RespondsOnce { s with inbox := rest } (step s) := by
  cases hm : decode m with
  | ok i =>
    rw [step_of_decode_ok h hm]
    exact respondsOnce_exec i _
  | error e =>
    rw [step_of_decode_error h hm]
    exact respondsOnce_refuse _ _

theorem step_completes (s : State) : ∃ t, step s = .next t := by
  match h : s.inbox with
  | [] => exact ⟨_, step_of_idle h⟩
  | .resetInput :: rest => exact ⟨_, step_of_resetInput h⟩
  | .command m :: rest =>
    obtain ⟨u, r, hstep, -⟩ := respondsOnce_step h
    exact ⟨_, hstep⟩

end Sys2Proof.Machine
end

section
/-! SUPPORT. Proofs of the statements of 00_scope.md, with the invariants of a block right after reset. -/

namespace Sys2Proof.Machine

theorem Params.default_roomy : Params.default.roomy := by decide

/-- Right after reset every store is empty, so only the size of the stores is left to the build. -/
theorem State.resetWith_inv {p : Params} (hp : p.roomy) : (State.resetWith p).Inv where
  emptySlot _ := rfl
  slotBound h := by cases h
  tableForm := Table.wf_nil
  reservedAbsent := rfl
  entryLegal _ _ h := by cases h
  payloadBound _ _ _ h := by cases h
  queueBound := Nat.zero_le _
  candBound _ h := by cases h
  capacities := hp

end Sys2Proof.Machine

namespace Sys2Proof.Proofs

open Sys2Proof.Machine

/-- Settles O8: a step on a message is a `RespondsOnce`, and a response is an error code alone or begins with ACK. -/
theorem everyCommandGetsOneResponse : Obligations.EveryCommandGetsOneResponse := by
  refine ⟨step_completes, fun s t m rest hin hstep => ?_⟩
  obtain ⟨u, r, hu, hparams, hinbox, houtbox, -⟩ := respondsOnce_step hin
  obtain rfl : t = u.respond r := Host.Outcome.next.inj (hstep.symm.trans hu)
  have hsent : (u.respond r).outbox = s.outbox ++ [r.encode] := congrArg (· ++ [r.encode]) houtbox
  rcases r.encode_cases with ⟨rc, rfl⟩ | ⟨body, hack⟩
  · exact ⟨rc.byte, [], hsent, rc.byte_toNat_le, fun _ => rfl, hinbox, hparams⟩
  · rw [hack] at hsent
    exact ⟨ackByte, body, hsent, by decide, fun h => absurd rfl h, hinbox, hparams⟩

/-- Settles O3. -/
theorem invariantAtReset : Obligations.InvariantAtReset :=
  ⟨fun _ hp => State.resetWith_inv hp, State.resetWith_inv Params.default_roomy⟩

/-- Settles O6. -/
theorem stepRunsDecodedCommand : Obligations.StepRunsDecodedCommand :=
  fun _ _ _ _ hin hm => ⟨step_of_decode_ok hin hm, decode_encodable hm⟩

/-- Settles O60: where a build sets neither capacity, both are the formula of R5, so the stores are large enough. -/
theorem buildParameters : Obligations.BuildParameters := by
  refine ⟨rfl, fun lossBound maxCandLen maxCands => ?_, fun _ => rfl, fun _ _ _ _ _ => ⟨rfl, rfl, rfl, rfl, rfl⟩⟩
  exact ⟨rfl, rfl, Nat.le_refl _, Nat.le_refl _⟩

end Sys2Proof.Proofs
end

section
/-! SUPPORT. Effect proofs: all that a command can leave in the state elements (10_state.md R20), said once. -/

namespace Sys2Proof.Machine

/-- `Effect s i u`: the command `i`, begun in `s`, leaves `u`, to which only the response is still to be added. -/
inductive Effect (s : State) : Instr → State → Prop
  /-- a pure command, a refused one, or a FETCH of an absent key -/
  | unchanged {i : Instr} (hdrain : i ≠ .drain) (hreset : i ≠ .reset) : Effect s i s
  | queued {data : Bytes} (hlen : data.length ≤ s.params.maxCandLen) (hroom : s.cq.length ≠ s.params.maxCands) :
      Effect s (.push data) (s.withQueue (s.cq ++ [data]))
  | drained {cy : Cycle} (hloop : drainLoop s.params.lossBound s.cq.reverse s.startCycle = .ok cy) :
      Effect s .drain (s.endCycle cy)
  | fetched (key : Key) : Effect s (.fetch key) (s.withTable (s.table.erase key))
  | cleared : Effect s .reset s.clearElements

theorem answerData_eq_respond (f : Bytes → Response) (data : Bytes) (s : State) :
    ∃ r, answerData f data s = .next (s.respond r) := by
  rcases Nat.lt_or_ge s.params.maxCandLen data.length with hlen | hlen
  · exact ⟨_, answerData_of_gt hlen f⟩
  · exact ⟨_, answerData_of_le hlen f⟩

theorem execBuild_eq_respond (idb : Byte) (data : Bytes) (s : State) :
    ∃ r, execBuild idb data s = .next (s.respond r) := by
  rcases Nat.lt_or_ge s.params.maxCandLen data.length with hlen | hlen
  · exact ⟨_, checkLength_of_gt hlen _⟩
  · cases hid : isIdentity idb with
    | false => exact ⟨_, (checkLength_of_le hlen _).trans (checkIdentity_of_not_mem hid s _)⟩
    | true => exact ⟨_, (checkLength_of_le hlen _).trans (checkIdentity_of_mem hid s _)⟩

theorem execPush_effect (data : Bytes) (s : State) :
    ∃ u r, Effect s (.push data) u ∧ execPush data s = .next (u.respond r) := by
  rcases Nat.lt_or_ge s.params.maxCandLen data.length with hlen | hlen
  · exact ⟨s, _, .unchanged nofun nofun, checkLength_of_gt hlen _⟩
  · by_cases hfull : s.cq.length = s.params.maxCands
    · exact ⟨s, _, .unchanged nofun nofun, (checkLength_of_le hlen _).trans (checkQueue_of_eq hfull _)⟩
    · exact ⟨_, .ra, .queued hlen hfull, (checkLength_of_le hlen _).trans (checkQueue_of_ne hfull _)⟩

theorem execDrain_effect (s : State) : ∃ u r, Effect s .drain u ∧ execDrain s = .next (u.respond r) := by
  obtain ⟨cy, hloop⟩ := drainLoop_ok s.params.lossBound s.cq.reverse s.startCycle
  exact ⟨_, .ra, .drained hloop, execDrain_of_loop hloop⟩

theorem execFetch_effect (key : Key) (s : State) :
    ∃ u r, Effect s (.fetch key) u ∧ execFetch key s = .next (u.respond r) := by
  cases h : s.table.get key with
  | some e => exact ⟨_, _, .fetched key, execFetch_of_some h⟩
  | none => exact ⟨s, _, .unchanged nofun nofun, execFetch_of_none h⟩

/-- An outcome that is only a response is the effect `unchanged`. -/
theorem effect_of_respond {i : Instr} {s : State} {out : Result} (hdrain : i ≠ .drain) (hreset : i ≠ .reset)
    (h : ∃ r, out = .next (s.respond r)) : ∃ u r, Effect s i u ∧ out = .next (u.respond r) := by
  obtain ⟨r, hr⟩ := h
  exact ⟨s, r, .unchanged hdrain hreset, hr⟩

/-- Every command, with any operands and in any state, has one of the effects and then responds. -/
theorem exec_effect (i : Instr) (s : State) : ∃ u r, Effect s i u ∧ exec i s = .next (u.respond r) := by
  cases i with
  | crc8 data => exact effect_of_respond nofun nofun (answerData_eq_respond (fun d => .rb (crc8 d)) data s)
  | verify data => exact effect_of_respond nofun nofun (answerData_eq_respond (fun d => .rb (verify d).byte) data s)
  | stuff data => exact effect_of_respond nofun nofun (answerData_eq_respond (fun d => .rd (stuff d)) data s)
  | unstuff data => exact effect_of_respond nofun nofun (answerData_eq_respond (fun d => .rd (unstuff d)) data s)
  | classify data => exact effect_of_respond nofun nofun (answerData_eq_respond (fun d => .rb (boolByte (isComplete d))) data s)
  | build idb data => exact effect_of_respond nofun nofun (execBuild_eq_respond idb data s)
  | push data => exact execPush_effect data s
  | drain => exact execDrain_effect s
  | keys => exact effect_of_respond nofun nofun ⟨_, rfl⟩
  | fetch key => exact execFetch_effect key s
  | status => exact effect_of_respond nofun nofun ⟨_, rfl⟩
  | reset => exact ⟨_, .ra, .cleared, rfl⟩

theorem effect_of_exec {i : Instr} {s t : State} (h : exec i s = .next t) :
    ∃ u r, Effect s i u ∧ t = u.respond r := by
  obtain ⟨u, r, heffect, hexec⟩ := exec_effect i s
  exact ⟨u, r, heffect, Host.Outcome.next.inj (h.symm.trans hexec)⟩

/-- The parameters and the port after a command: exactly one response is added. -/
theorem exec_frame {i : Instr} {s t : State} (h : exec i s = .next t) :
    t.params = s.params ∧ t.inbox = s.inbox ∧ ∃ r, t.outbox = s.outbox ++ [r] := by
  obtain ⟨u, r, hexec, hparams, hinbox, houtbox, -⟩ := respondsOnce_exec i s
  obtain rfl := Host.Outcome.next.inj (h.symm.trans hexec)
  exact ⟨hparams, hinbox, r.encode, congrArg (· ++ [r.encode]) houtbox⟩

end Sys2Proof.Machine
end

section
/-! SUPPORT. Invariant proofs: the invariants of 10_state.md R21 to R25 element by element, each kept by the operations that
write its element, then by a DRAIN and by a step. -/

namespace Sys2Proof.Machine

open Sys2Proof.Claims

theorem maxCandLen_le_neededCap (p : Params) : p.maxCandLen ≤ p.neededCap := Nat.le_add_left ..

/-! ### The pending slot (R21, R22) -/

/-- R21 and R22 of a slot holding `pstate` and `pbuf`. -/
structure SlotInv (p : Params) (pstate : PState) (pbuf : Bytes) : Prop where
  emptySlot : pstate = .empty → pbuf = []
  slotBound : pstate = .pending → pbuf.length ≤ max p.maxCandLen p.lossBound

theorem SlotInv.empty (p : Params) : SlotInv p .empty [] := ⟨fun _ => rfl, nofun⟩

theorem SlotInv.pending {p : Params} {pbuf : Bytes} (h : pbuf.length ≤ max p.maxCandLen p.lossBound) :
    SlotInv p .pending pbuf := ⟨nofun, fun _ => h⟩

theorem SlotInv.length_append_le {p : Params} {pstate : PState} {pbuf c : Bytes} (h : SlotInv p pstate pbuf)
    (hc : c.length ≤ p.maxCandLen) : (pbuf ++ c).length ≤ p.neededCap := by
  have hbuf : pbuf.length ≤ max p.maxCandLen p.lossBound := by
    cases pstate with
    | empty => simp [h.emptySlot rfl]
    | pending => exact h.slotBound rfl
  rw [List.length_append]
  exact Nat.add_le_add hbuf hc

/-! ### TABLE (R23, R24, log 7) -/

/-- R24(b) and R24(c) of one present Entry. -/
structure EntryInv (p : Params) (e : Entry) : Prop where
  legal : e.legal
  payloadBound : ∀ pl, e.payload = some pl → pl.length ≤ p.payloadCap

/-- Unstuffing and slicing only shorten a frame, so a frame that fits PAYLOAD_CAP has a payload that does. -/
theorem entryInv_entryOf {p : Params} {f : Bytes} (hf : f.length ≤ p.payloadCap) (a b : Nat) :
    EntryInv p (entryOf f (slice a b (unstuff f))) := by
  rcases entryOf_cases f (slice a b (unstuff f)) with ⟨-, h⟩ | ⟨-, h⟩
  · rw [h]
    refine ⟨.inl ⟨rfl, rfl⟩, fun pl hpl => ?_⟩
    obtain rfl := Option.some.inj hpl
    exact ((slice_length_le a b _).trans (unstuff_length_le f)).trans hf
  · rw [h]
    exact ⟨.inr ⟨rfl, rfl⟩, nofun⟩

/-- R24 and the canonical form of a table. -/
structure TableInv (p : Params) (t : Table) : Prop where
  form : t.wf
  reservedAbsent : t.get wire.reserved = none
  entryInv : ∀ k e, t.get k = some e → EntryInv p e

theorem TableInv.set {p : Params} {t : Table} {k : Key} {e : Entry} (h : TableInv p t) (hk : k ≠ wire.reserved)
    (he : EntryInv p e) : TableInv p (t.set k e) where
  form := Table.wf_set h.form k e
  reservedAbsent := (Table.get_set_of_ne hk.symm t e).trans h.reservedAbsent
  entryInv k' e' hget := by
    rw [Table.get_set] at hget
    split at hget
    · rwa [← Option.some.inj hget]
    · exact h.entryInv k' e' hget

theorem TableInv.erase {p : Params} {t : Table} (h : TableInv p t) (k : Key) : TableInv p (t.erase k) where
  form := Table.wf_erase h.form k
  reservedAbsent := by
    rw [Table.get_erase, h.reservedAbsent, ite_self]
  entryInv k' e' hget := by
    rw [Table.get_erase] at hget
    split at hget
    · cases hget
    · exact h.entryInv k' e' hget

/-! ### CQ (R25) -/

/-- R25 of a queue. -/
structure QueueInv (p : Params) (cq : List Bytes) : Prop where
  queueBound : cq.length ≤ p.maxCands
  candBound : ∀ c ∈ cq, c.length ≤ p.maxCandLen

theorem QueueInv.nil (p : Params) : QueueInv p [] := ⟨Nat.zero_le _, nofun⟩

theorem QueueInv.push {p : Params} {cq : List Bytes} {c : Bytes} (h : QueueInv p cq) (hroom : cq.length ≠ p.maxCands)
    (hc : c.length ≤ p.maxCandLen) : QueueInv p (cq ++ [c]) where
  queueBound := by
    rw [List.length_append]
    exact Nat.lt_of_le_of_ne h.queueBound hroom
  candBound x hx := by
    rcases List.mem_append.1 hx with hx | hx
    · exact h.candBound x hx
    · rwa [List.mem_singleton.1 hx]

/-! ### The whole state -/

/-- The invariants of a state are those of its elements, with stores that are large enough (log 20). -/
theorem State.inv_iff {s : State} :
    s.Inv ↔ s.params.roomy ∧ SlotInv s.params s.pstate s.pbuf ∧ TableInv s.params s.table ∧ QueueInv s.params s.cq := by
  constructor
  · intro h
    have hentry : ∀ k e, s.table.get k = some e → EntryInv s.params e :=
      fun k e hget => ⟨h.entryLegal k e hget, fun pl => h.payloadBound k e pl hget⟩
    exact ⟨h.capacities, ⟨h.emptySlot, h.slotBound⟩, ⟨h.tableForm, h.reservedAbsent, hentry⟩,
      ⟨h.queueBound, h.candBound⟩⟩
  · rintro ⟨hroomy, hslot, htable, hqueue⟩
    exact {
      emptySlot := hslot.emptySlot
      slotBound := hslot.slotBound
      tableForm := htable.form
      reservedAbsent := htable.reservedAbsent
      entryLegal := fun k e hget => (htable.entryInv k e hget).legal
      payloadBound := fun k e pl hget => (htable.entryInv k e hget).payloadBound pl
      queueBound := hqueue.queueBound
      candBound := hqueue.candBound
      capacities := hroomy }

/-- The port is no part of the invariants. -/
theorem State.Inv.of_sameElements {s t : State} (h : s.Inv) (hparams : t.params = s.params) (hsame : sameElements s t) :
    t.Inv := by
  obtain ⟨hpstate, hpbuf, htable, hcq⟩ := hsame
  rw [State.inv_iff, hparams, hpstate, hpbuf, htable, hcq]
  exact State.inv_iff.1 h

theorem State.Inv.respond {s : State} (h : s.Inv) (r : Response) : (s.respond r).Inv :=
  h.of_sameElements rfl ⟨rfl, rfl, rfl, rfl⟩

theorem State.Inv.withInbox {s : State} (h : s.Inv) (rest : List PortEvent) : { s with inbox := rest }.Inv :=
  h.of_sameElements rfl ⟨rfl, rfl, rfl, rfl⟩

theorem State.Inv.clearElements {s : State} (h : s.Inv) : s.clearElements.Inv :=
  (State.resetWith_inv h.capacities).of_sameElements rfl ⟨rfl, rfl, rfl, rfl⟩

/-! ### A DRAIN -/

/-- The invariants of the elements a DRAIN is working on. -/
structure CycleInv (p : Params) (cy : Cycle) : Prop where
  slot : SlotInv p cy.pstate cy.pbuf
  table : TableInv p cy.table

theorem State.Inv.startCycle {s : State} (h : s.Inv) : CycleInv s.params s.startCycle := by
  obtain ⟨-, hslot, htable, -⟩ := State.inv_iff.1 h
  exact ⟨hslot, htable⟩

theorem CycleInv.file {p : Params} {cy : Cycle} {k : Key} {e : Entry} (h : CycleInv p cy) (hk : k ≠ wire.reserved)
    (he : EntryInv p e) : CycleInv p (file k e cy) := by
  rcases file_cases k e cy with ⟨-, hfile⟩ | ⟨-, hfile⟩
  · rwa [hfile]
  · rw [hfile]
    exact ⟨h.slot, h.table.set hk he⟩

theorem CycleInv.fileDecoded {p : Params} {cy cy' : Cycle} {f : Bytes} (h : CycleInv p cy) (hf : isComplete f = true)
    (hlen : f.length ≤ p.payloadCap) (hcy' : fileDecoded (decodeFrame f) cy = .ok cy') : CycleInv p cy' := by
  rcases fileDecoded_complete hf cy with ⟨-, hdrop⟩ | ⟨k, a, b, hk, -, hfiled⟩
  · obtain rfl := Except.ok.inj (hdrop.symm.trans hcy')
    exact h
  · obtain rfl := Except.ok.inj (hfiled.symm.trans hcy')
    exact h.file hk (entryInv_entryOf hlen a b)

/-- One candidate keeps the invariants: a frame it files, its own or a rebuilt one, is at most `neededCap` bytes, and what it
leaves pending is a candidate or within LOSS_BOUND. -/
theorem CycleInv.process {p : Params} {cy cy' : Cycle} {c : Bytes} (hp : p.roomy) (hc : c.length ≤ p.maxCandLen)
    (h : CycleInv p cy) (hcy' : process p.lossBound c cy = .ok cy') : CycleInv p cy' := by
  have hemptied : CycleInv p { cy with pstate := .empty, pbuf := [] } := ⟨SlotInv.empty p, h.table⟩
  rcases process_cases p.lossBound c cy with
    ⟨hcomplete, hproc⟩ | ⟨-, -, hproc⟩ | ⟨-, -, hcomplete, hproc⟩ | ⟨-, -, -, -, hproc⟩ | ⟨-, hpending, -, hbound, hproc⟩
  · exact h.fileDecoded hcomplete ((hc.trans (maxCandLen_le_neededCap p)).trans hp.2) (hproc.symm.trans hcy')
  · obtain rfl := Except.ok.inj (hproc.symm.trans hcy')
    exact ⟨SlotInv.pending (hc.trans (Nat.le_max_left ..)), h.table⟩
  · exact hemptied.fileDecoded hcomplete ((h.slot.length_append_le hc).trans hp.2) (hproc.symm.trans hcy')
  · obtain rfl := Except.ok.inj (hproc.symm.trans hcy')
    exact hemptied
  · obtain rfl := Except.ok.inj (hproc.symm.trans hcy')
    refine ⟨?_, h.table⟩
    rw [hpending]
    exact SlotInv.pending (hbound.trans (Nat.le_max_right ..))

theorem CycleInv.drainLoop {p : Params} {cy cy' : Cycle} {cs : List Bytes} (hp : p.roomy)
    (hcs : ∀ c ∈ cs, c.length ≤ p.maxCandLen) (h : CycleInv p cy) (hcy' : drainLoop p.lossBound cs cy = .ok cy') :
    CycleInv p cy' := by
  obtain ⟨cy₁, hloop, hinv⟩ :=
    drainLoop_induct (CycleInv p) (fun c hc _ _ hcy hproc => hcy.process hp (hcs c hc) hproc) cy h
  rwa [← Except.ok.inj (hloop.symm.trans hcy')]

/-! ### A command and a step -/

theorem Effect.inv {s u : State} {i : Instr} (heffect : Effect s i u) (h : s.Inv) : u.Inv := by
  obtain ⟨hroomy, hslot, htable, hqueue⟩ := State.inv_iff.1 h
  cases heffect with
  | unchanged => exact h
  | queued hlen hroom => exact State.inv_iff.2 ⟨hroomy, hslot, htable, hqueue.push hroom hlen⟩
  | drained hloop =>
    have hcs : ∀ c ∈ s.cq.reverse, c.length ≤ s.params.maxCandLen :=
      fun c hc => hqueue.candBound c (List.mem_reverse.1 hc)
    have hcy := h.startCycle.drainLoop hroomy hcs hloop
    exact State.inv_iff.2 ⟨hroomy, hcy.slot, hcy.table, QueueInv.nil _⟩
  | fetched key => exact State.inv_iff.2 ⟨hroomy, hslot, htable.erase key, hqueue⟩
  | cleared => exact h.clearElements

theorem exec_keeps_inv {i : Instr} {s t : State} (h : s.Inv) (hexec : exec i s = .next t) : t.Inv := by
  obtain ⟨u, r, heffect, rfl⟩ := effect_of_exec hexec
  exact (heffect.inv h).respond r

theorem step_keeps_inv {s t : State} (h : s.Inv) (hstep : step s = .next t) : t.Inv := by
  match hin : s.inbox with
  | [] =>
    obtain rfl := Host.Outcome.next.inj ((step_of_idle hin).symm.trans hstep)
    exact h
  | .resetInput :: rest =>
    obtain rfl := Host.Outcome.next.inj ((step_of_resetInput hin).symm.trans hstep)
    exact (h.withInbox rest).clearElements
  | .command m :: rest =>
    cases hm : decode m with
    | ok i => exact exec_keeps_inv (h.withInbox rest) ((step_of_decode_ok hin hm).symm.trans hstep)
    | error e =>
      obtain rfl := Host.Outcome.next.inj ((step_of_decode_error hin hm).symm.trans hstep)
      exact (h.withInbox rest).respond _

/-! ### The default build with a full pending slot (R22) -/

/-- The longest candidate of the default build, incomplete. -/
def longestFragment : Bytes := List.replicate 256 0x00#8

theorem longestFragment_length : longestFragment.length = 256 := List.length_replicate

theorem isComplete_of_not_identity {b : Byte} (hb : isIdentity b = false) (s : Bytes) : isComplete (b :: s) = false := by
  simp [isComplete, hb]

theorem longestFragment_incomplete : isComplete longestFragment = false :=
  isComplete_of_not_identity (by decide) (List.replicate 255 0x00#8)

/-- The default build with the longest pending sequence a DRAIN can leave, and the longest candidate waiting. -/
def fullSlotState : State :=
  { State.reset with pstate := .pending, pbuf := longestFragment, cq := [longestFragment] }

theorem fullSlotState_inv : fullSlotState.Inv := by
  obtain ⟨hroomy, -, htable, hqueue⟩ := State.inv_iff.1 (State.resetWith_inv Params.default_roomy)
  have hlen : longestFragment.length ≤ Params.default.maxCandLen := longestFragment_length.le
  exact State.inv_iff.2 ⟨hroomy, SlotInv.pending (hlen.trans (Nat.le_max_left ..)), htable,
    hqueue.push (by decide) hlen⟩

end Sys2Proof.Machine
end

section
/-! SUPPORT. Proofs of the statements of 10_state.md. -/

namespace Sys2Proof.Proofs

open Sys2Proof.Machine Sys2Proof.Claims

/-- Settles O4. -/
theorem invariantKeptByEveryStep : Obligations.InvariantKeptByEveryStep :=
  fun _ _ => step_keeps_inv

/-- Settles O56: `exec_frame` gives the parameters and the port, `Effect` the elements a command may write. -/
theorem commandFrames : Obligations.CommandFrames := by
  intro s t i hexec
  obtain ⟨hparams, hinbox, houtbox⟩ := exec_frame hexec
  refine ⟨hparams, hinbox, houtbox, ?_⟩
  obtain ⟨u, r, heffect, rfl⟩ := effect_of_exec hexec
  cases heffect with
  | unchanged hdrain _ =>
    exact ⟨fun _ => ⟨rfl, rfl, rfl, rfl⟩, fun _ _ => ⟨rfl, rfl, rfl⟩, fun _ _ => ⟨rfl, rfl, rfl⟩, fun h => absurd h hdrain⟩
  | queued => exact ⟨False.elim, fun _ _ => ⟨rfl, rfl, rfl⟩, nofun, nofun⟩
  | drained => exact ⟨False.elim, nofun, nofun, fun _ => rfl⟩
  | fetched => exact ⟨False.elim, nofun, fun _ _ => ⟨rfl, rfl, rfl⟩, nofun⟩
  | cleared => exact ⟨False.elim, nofun, nofun, nofun⟩

/-- Settles O59: what the newer candidates leave pending keeps R22, so one more candidate fits R5's formula; `fullSlotState`
attains it. -/
theorem concatenationsFitThePendingSlot : Obligations.ConcatenationsFitThePendingSlot := by
  refine ⟨fun s older newer c cy hinv hcq hloop => ?_, ?_⟩
  · have hnewer : ∀ x ∈ newer.reverse, x.length ≤ s.params.maxCandLen :=
      fun x hx => hinv.candBound x (by simp [hcq, List.mem_reverse.1 hx])
    have hc : c.length ≤ s.params.maxCandLen := hinv.candBound c (by simp [hcq])
    have hcy := hinv.startCycle.drainLoop hinv.capacities hnewer hloop
    exact (hcy.slot.length_append_le hc).trans hinv.capacities.1
  · refine ⟨fullSlotState, longestFragment, fullSlotState_inv, rfl, rfl, rfl, longestFragment_incomplete, ?_⟩
    exact List.length_append.trans (congrArg₂ (· + ·) longestFragment_length longestFragment_length)

/-- Settles O2. -/
theorem resetValues : Obligations.ResetValues :=
  ⟨fun _ => ⟨rfl, rfl, Table.get_nil, rfl⟩, congrArg State.resetWith buildParameters.1⟩

/-- Settles O57. -/
theorem statusAndErrorCodes : Obligations.StatusAndErrorCodes := by
  unfold Obligations.StatusAndErrorCodes
  decide

end Sys2Proof.Proofs
end

section
/-! SUPPORT. Purity proofs: what a pure command answers depends on the parameters and the state elements, never on the
responses already sent (20_memory.md R46). -/

namespace Sys2Proof.Machine

open Sys2Proof.Claims

/-- Begun in `s`, whatever responses were sent before, the command completes with one and the same response and changes
nothing else. -/
def AnswersOnly (s : State) (cmd : State → Result) : Prop :=
  ∃ r, ∀ sent, cmd { s with outbox := sent } = .next ({ s with outbox := sent }.respond r)

theorem AnswersOnly.checkLength {s : State} {cmd : State → Result} (h : AnswersOnly s cmd) (data : Bytes) :
    AnswersOnly s fun u => checkLength data u (cmd u) := by
  rcases Nat.lt_or_ge s.params.maxCandLen data.length with hlen | hlen
  · exact ⟨.err .errLength, fun sent => checkLength_of_gt (s := { s with outbox := sent }) hlen _⟩
  · obtain ⟨r, hr⟩ := h
    exact ⟨r, fun sent => (checkLength_of_le (s := { s with outbox := sent }) hlen _).trans (hr sent)⟩

theorem AnswersOnly.checkIdentity {s : State} {cmd : State → Result} (h : AnswersOnly s cmd) (idb : Byte) :
    AnswersOnly s fun u => checkIdentity idb u (cmd u) := by
  cases hid : isIdentity idb with
  | false => exact ⟨.err .errIdentity, fun _ => checkIdentity_of_not_mem hid _ _⟩
  | true =>
    obtain ⟨r, hr⟩ := h
    exact ⟨r, fun sent => (checkIdentity_of_mem hid _ _).trans (hr sent)⟩

theorem answersOnly_respond (s : State) (r : Response) : AnswersOnly s fun u => .next (u.respond r) :=
  ⟨r, fun _ => rfl⟩

theorem answersOnly_answerData (f : Bytes → Response) (data : Bytes) (s : State) : AnswersOnly s (answerData f data) :=
  (answersOnly_respond s (f data)).checkLength data

theorem answersOnly_execBuild (idb : Byte) (data : Bytes) (s : State) : AnswersOnly s (execBuild idb data) :=
  ((answersOnly_respond s (.rd (build idb data))).checkIdentity idb).checkLength data

theorem answersOnly_exec {i : Instr} (hpure : isPure i) (s : State) : AnswersOnly s (exec i) := by
  cases i with
  | crc8 data => exact answersOnly_answerData (fun d => .rb (crc8 d)) data s
  | verify data => exact answersOnly_answerData (fun d => .rb (verify d).byte) data s
  | stuff data => exact answersOnly_answerData (fun d => .rd (stuff d)) data s
  | unstuff data => exact answersOnly_answerData (fun d => .rd (unstuff d)) data s
  | classify data => exact answersOnly_answerData (fun d => .rb (boolByte (isComplete d))) data s
  | build idb data => exact answersOnly_execBuild idb data s
  | keys => exact ⟨.rk (validBits s.table), fun _ => rfl⟩
  | status => exact ⟨.rs s.pstate s.pbuf.length s.cq.length, fun _ => rfl⟩
  | push | drain | fetch | reset => exact hpure.elim

end Sys2Proof.Machine
end

section
/-! SUPPORT. Proofs of the statements of 20_memory.md. -/

namespace Sys2Proof.Proofs

open Sys2Proof.Machine

/-- Settles O55: the second time only the responses already sent differ, and `AnswersOnly` is independent of them. -/
theorem pureCommandsLeaveTheState : Obligations.PureCommandsLeaveTheState := by
  intro s i hpure
  obtain ⟨r, hr⟩ := answersOnly_exec hpure s
  exact ⟨r.encode, hr s.outbox, hr (s.outbox ++ [r.encode])⟩

end Sys2Proof.Proofs
end

section
/-! SUPPORT. Round-trip proofs: `encode` against `decode`, by message format (30_encoding.md R68, R69, R71), and the opcodes
that are in no row of the opcode map (R72). -/

namespace Sys2Proof

/-- The operands of format D are read as `data` exactly when they are its encoding, and then the LEN field carries its length. -/
theorem decodeData_eq_ok_iff_encodeData {rest data : Bytes} :
    decodeData rest = .ok data ↔ data.length ≤ 65535 ∧ encodeData data = rest := by
  constructor
  · intro h
    refine ⟨decodeData_length_le h, ?_⟩
    obtain ⟨hi, lo, rfl, hlen⟩ := decodeData_eq_ok.1 h
    have hhi : BitVec.ofNat 8 (be16 hi lo / 256) = hi := BitVec.eq_of_toNat_eq (by simp [be16]; omega)
    have hlo : BitVec.ofNat 8 (be16 hi lo) = lo := BitVec.eq_of_toNat_eq (by simp [be16]; omega)
    simp [encodeData, be16Bytes, hlen, hhi, hlo]
  · rintro ⟨hlen, rfl⟩
    exact decodeData_eq_ok.2 ⟨_, _, rfl, (be16_be16Bytes (by omega)).symm⟩

theorem decodeData_encodeData {data : Bytes} (h : data.length ≤ 65535) : decodeData (encodeData data) = .ok data :=
  decodeData_eq_ok_iff_encodeData.2 ⟨h, rfl⟩

theorem decode_formD {opc : Byte} {mk : Bytes → Instr} {data : Bytes} (hform : formOf opc = some (.d mk))
    (hlen : data.length ≤ 65535) : decode (opc :: encodeData data) = .ok (mk data) := by
  rw [decode_of_formOf hform]
  exact map_decodeData_eq_ok.2 ⟨data, decodeData_encodeData hlen, rfl⟩

theorem decode_formID {opc idb : Byte} {mk : Byte → Bytes → Instr} {data : Bytes} (hform : formOf opc = some (.id mk))
    (hlen : data.length ≤ 65535) : decode (opc :: idb :: encodeData data) = .ok (mk idb data) := by
  rw [decode_of_formOf hform]
  exact map_decodeData_eq_ok.2 ⟨data, decodeData_encodeData hlen, rfl⟩

theorem decode_encode {i : Instr} (h : i.encodable = true) : decode (encode i) = .ok i := by
  cases i with
  | crc8 | verify | stuff | unstuff | classify | push => exact decode_formD rfl (of_decide_eq_true h)
  | build => exact decode_formID rfl (of_decide_eq_true h)
  | drain | keys | fetch | status | reset => rfl

theorem Instr.wf_build_iff {p : Params} {idb : Byte} {data : Bytes} :
    (Instr.build idb data).wf p = true ↔ data.length ≤ p.maxCandLen ∧ isIdentity idb = true := by
  simp [Instr.wf]

theorem Params.ok.maxCandLen_le {p : Params} (h : p.ok) : p.maxCandLen ≤ 65535 := by
  have := h.1
  omega

theorem Instr.encodable_of_wf {p : Params} (hp : p.ok) {i : Instr} (h : i.wf p = true) : i.encodable = true := by
  cases i with
  | crc8 | verify | stuff | unstuff | classify | push =>
    exact decide_eq_true ((of_decide_eq_true h).trans hp.maxCandLen_le)
  | build => exact decide_eq_true ((Instr.wf_build_iff.1 h).1.trans hp.maxCandLen_le)
  | drain | keys | fetch | status | reset => rfl

/-- `encode` writes every command the form makes as `opc` and then the operands of that format. -/
def Form.EncodesAs (opc : Byte) : Form → Prop
  | .n i => encode i = [opc]
  | .k mk => ∀ key, encode (mk key) = [opc, key]
  | .d mk => ∀ data, encode (mk data) = opc :: encodeData data
  | .id mk => ∀ idb data, encode (mk idb data) = opc :: idb :: encodeData data

theorem opcodeTable_encodesAs : ∀ r ∈ opcodeTable, r.form.EncodesAs r.opc := by
  simp [opcodeTable, Form.EncodesAs, encode]

theorem encode_of_decodeForm {opc : Byte} {form : Form} (hform : form.EncodesAs opc) {rest : Bytes} {i : Instr}
    (h : decodeForm form rest = .ok i) : encode i = opc :: rest := by
  cases form with
  | n j =>
    cases rest with
    | nil => cases h; exact hform
    | cons => cases h
  | k mk =>
    match rest with
    | [] => cases h
    | [key] => cases h; exact hform key
    | _ :: _ :: _ => cases h
  | d mk =>
    obtain ⟨data, hdata, rfl⟩ := map_decodeData_eq_ok.1 h
    rw [hform data, (decodeData_eq_ok_iff_encodeData.1 hdata).2]
  | id mk =>
    cases rest with
    | nil => cases h
    | cons idb rest =>
      obtain ⟨data, hdata, rfl⟩ := map_decodeData_eq_ok.1 h
      rw [hform idb data, (decodeData_eq_ok_iff_encodeData.1 hdata).2]

theorem encode_of_decode {m : Bytes} {i : Instr} (h : decode m = .ok i) : encode i = m := by
  cases m with
  | nil => cases h
  | cons opc rest =>
    cases hform : formOf opc with
    | none =>
      rw [decode_of_formOf_none hform] at h
      cases h
    | some form =>
      rw [decode_of_formOf hform] at h
      exact encode_of_decodeForm (opcodeTable_encodesAs _ (formOf_mem hform)) h

/-- The ranges the opcodes of the map lie in; R72 lists the rest. -/
theorem opcodeTable_ranges : ∀ r ∈ opcodeTable,
    (0x01 ≤ r.opc.toNat ∧ r.opc.toNat ≤ 0x06) ∨ (0x10 ≤ r.opc.toNat ∧ r.opc.toNat ≤ 0x14) ∨ r.opc.toNat = 0x1F := by
  simp [opcodeTable]

theorem formOf_eq_some_range {opc : Byte} {form : Form} (h : formOf opc = some form) :
    (0x01 ≤ opc.toNat ∧ opc.toNat ≤ 0x06) ∨ (0x10 ≤ opc.toNat ∧ opc.toNat ≤ 0x14) ∨ opc.toNat = 0x1F :=
  opcodeTable_ranges _ (formOf_mem h)

theorem formOf_eq_none_of_illegal {opc : Byte}
    (h : opc.toNat = 0x00 ∨ (0x07 ≤ opc.toNat ∧ opc.toNat ≤ 0x0F) ∨ (0x15 ≤ opc.toNat ∧ opc.toNat ≤ 0x1E) ∨
      (0x20 ≤ opc.toNat ∧ opc.toNat ≤ 0xFF)) : formOf opc = none := by
  cases hform : formOf opc with
  | none => rfl
  | some form =>
    have := formOf_eq_some_range hform
    omega

end Sys2Proof
end

section
/-! SUPPORT. Length proofs: how long a stuffed sequence and a built frame are (41_codec.md R110, R112; 30_encoding.md R65). -/

namespace Sys2Proof.Machine

theorem stuff_length (s : Bytes) : (stuff s).length = s.length + s.countP isReserved := by
  induction s with
  | nil => rfl
  | cons b s ih =>
    rw [stuff_cons, List.length_append, ih, List.length_cons, List.countP_cons]
    split <;> simp <;> omega

theorem stuff_length_le (s : Bytes) : (stuff s).length ≤ 2 * s.length := by
  have := List.countP_le_length (p := isReserved) (l := s)
  rw [stuff_length]
  omega

theorem build_length_eq_stuff_length (id : Byte) (body : Bytes) :
    (build id body).length = (stuff (body ++ [crc8 ([id] ++ body)])).length + 2 := by
  simp [build]

theorem build_length_le (id : Byte) (body : Bytes) : (build id body).length ≤ 2 * body.length + 4 := by
  have := stuff_length_le (body ++ [crc8 ([id] ++ body)])
  rw [List.length_append, List.length_singleton] at this
  rw [build_length_eq_stuff_length]
  omega

end Sys2Proof.Machine
end

section
/-! SUPPORT. Format proofs: the response of a command that passes its operand checks is in the format of its row of the
opcode map (30_encoding.md R70, R71), each length field exact. -/

namespace Sys2Proof.Machine

open Sys2Proof.Claims

theorem lenField_exact {n : Nat} (h : n ≤ 65535) :
    ∃ hi lo : Byte, lenField n = [hi, lo] ∧ n = hi.toNat * 256 + lo.toNat :=
  ⟨_, _, lenField_of_lt (by omega), (be16_be16Bytes (by omega)).symm⟩

theorem shapeRD_encode {data : Bytes} (h : data.length ≤ 65535) : shapeRD (Response.rd data).encode := by
  obtain ⟨hi, lo, hfield, hlen⟩ := lenField_exact h
  exact ⟨hi, lo, data, by rw [Response.encode, hfield]; rfl, hlen⟩

theorem ackShape_fetch_of_legal {s : State} {key : Key} {e : Entry} (hlegal : e.legal)
    (hlen : ∀ pl, e.payload = some pl → pl.length ≤ 65535) :
    ackShape s (.fetch key) (Response.rf e.status e.payload).encode := by
  obtain ⟨status, payload⟩ := e
  rcases hlegal with ⟨rfl, hsome⟩ | ⟨rfl, rfl⟩
  · obtain ⟨pl, rfl⟩ := Option.isSome_iff_exists.1 hsome
    obtain ⟨hi, lo, hfield, hpl⟩ := lenField_exact (hlen pl rfl)
    exact ⟨0x00#8, hi, lo, pl, by rw [Response.encode, hfield]; rfl, hpl, .inl rfl⟩
  · exact ⟨0x08#8, 0x00#8, 0x00#8, [], rfl, rfl, .inr ⟨.inr rfl, rfl⟩⟩

theorem ackShape_status {s : State} (hbuf : s.pbuf.length ≤ 65535) (hcq : s.cq.length ≤ 65535) :
    ackShape s .status (Response.rs s.pstate s.pbuf.length s.cq.length).encode := by
  obtain ⟨p₁, p₀, hp, hplen⟩ := lenField_exact hbuf
  obtain ⟨q₁, q₀, hq, hqlen⟩ := lenField_exact hcq
  exact ⟨s.pstate.byte, p₁, p₀, q₁, q₀, by rw [Response.encode, hp, hq]; rfl, hplen, hqlen⟩

/-- The pending sequence fits STATUS's field, since a payload rebuilt from it must fit FETCH's. -/
theorem State.Inv.pbuf_length_le {s : State} (h : s.Inv) (hp : s.params.ok) : s.pbuf.length ≤ 65535 := by
  obtain ⟨hroomy, hslot, -, -⟩ := State.inv_iff.1 h
  have hneeded := hslot.length_append_le (c := []) (Nat.zero_le _)
  rw [List.append_nil] at hneeded
  exact (hneeded.trans hroomy.2).trans hp.2

/-- `out` completes the command `i`, begun in `s`, with one response: ACK in the command's format, or ERR_QUEUE_FULL for a
PUSH. -/
def AnswersInFormat (s : State) (i : Instr) (out : Result) : Prop :=
  ∃ (u : State) (r : Response), out = .next (u.respond r) ∧ u.outbox = s.outbox ∧
    (ackShape s i r.encode ∨ ((∃ data, i = .push data) ∧ r.encode = [0x05#8]))

theorem answersInFormat_of_ack {s u : State} {i : Instr} {r : Response} {out : Result} (hout : out = .next (u.respond r))
    (hsent : u.outbox = s.outbox) (hshape : ackShape s i r.encode) : AnswersInFormat s i out :=
  ⟨u, r, hout, hsent, .inl hshape⟩

theorem answersInFormat_execBuild {s : State} {idb : Byte} {data : Bytes} (hp : s.params.ok)
    (hwf : (Instr.build idb data).wf s.params = true) : AnswersInFormat s (.build idb data) (execBuild idb data s) := by
  obtain ⟨hlen, hid⟩ := Instr.wf_build_iff.1 hwf
  have hframe : (build idb data).length ≤ 65535 := by
    have := build_length_le idb data
    have := hp.1
    omega
  exact answersInFormat_of_ack ((checkLength_of_le hlen _).trans (checkIdentity_of_mem hid s _)) rfl
    (shapeRD_encode hframe)

theorem answersInFormat_execPush {s : State} {data : Bytes} (hlen : data.length ≤ s.params.maxCandLen) :
    AnswersInFormat s (.push data) (execPush data s) := by
  by_cases hfull : s.cq.length = s.params.maxCands
  · exact ⟨s, .err .errQueueFull, (checkLength_of_le hlen _).trans (checkQueue_of_eq hfull _), rfl,
      .inr ⟨⟨data, rfl⟩, rfl⟩⟩
  · exact answersInFormat_of_ack (u := s.withQueue (s.cq ++ [data])) (r := .ra)
      ((checkLength_of_le hlen _).trans (checkQueue_of_ne hfull _)) rfl rfl

theorem answersInFormat_execFetch {s : State} (key : Key) (hp : s.params.ok) (hinv : s.Inv) :
    AnswersInFormat s (.fetch key) (execFetch key s) := by
  cases h : s.table.get key with
  | some e =>
    exact answersInFormat_of_ack (execFetch_of_some h) rfl
      (ackShape_fetch_of_legal (hinv.entryLegal key e h) fun pl hpl => (hinv.payloadBound key e pl h hpl).trans hp.2)
  | none =>
    exact answersInFormat_of_ack (execFetch_of_none h) rfl
      ⟨0x01#8, 0x00#8, 0x00#8, [], rfl, rfl, .inr ⟨.inl rfl, rfl⟩⟩

theorem answersInFormat_exec {s : State} {i : Instr} (hp : s.params.ok) (hcands : s.params.maxCands ≤ 65535)
    (hinv : s.Inv) (hwf : i.wf s.params = true) : AnswersInFormat s i (exec i s) := by
  have hcap : 2 * s.params.maxCandLen + 4 ≤ 65535 := hp.1
  cases i with
  | crc8 data =>
    exact answersInFormat_of_ack (answerData_of_le (of_decide_eq_true hwf) fun d => .rb (crc8 d)) rfl ⟨_, rfl⟩
  | verify data =>
    refine answersInFormat_of_ack (answerData_of_le (of_decide_eq_true hwf) fun d => .rb (verify d).byte) rfl ?_
    rcases verify_cases data with h | h
    · exact .inl (by rw [h]; rfl)
    · exact .inr (by rw [h]; rfl)
  | stuff data =>
    have hlen : data.length ≤ s.params.maxCandLen := of_decide_eq_true hwf
    have := stuff_length_le data
    exact answersInFormat_of_ack (answerData_of_le hlen fun d => .rd (stuff d)) rfl (shapeRD_encode (by omega))
  | unstuff data =>
    have hlen : data.length ≤ s.params.maxCandLen := of_decide_eq_true hwf
    have := unstuff_length_le data
    exact answersInFormat_of_ack (answerData_of_le hlen fun d => .rd (unstuff d)) rfl (shapeRD_encode (by omega))
  | classify data =>
    refine answersInFormat_of_ack
      (answerData_of_le (of_decide_eq_true hwf) fun d => .rb (boolByte (isComplete d))) rfl ?_
    cases h : isComplete data with
    | false => exact .inl rfl
    | true => exact .inr rfl
  | build => exact answersInFormat_execBuild hp hwf
  | push => exact answersInFormat_execPush (of_decide_eq_true hwf)
  | drain =>
    obtain ⟨cy, hloop⟩ := drainLoop_ok s.params.lossBound s.cq.reverse s.startCycle
    exact answersInFormat_of_ack (execDrain_of_loop hloop) rfl rfl
  | keys => exact answersInFormat_of_ack (u := s) (r := .rk (validBits s.table)) rfl rfl ⟨rfl, rfl⟩
  | fetch key => exact answersInFormat_execFetch key hp hinv
  | status =>
    exact answersInFormat_of_ack rfl rfl (ackShape_status (hinv.pbuf_length_le hp) (hinv.queueBound.trans hcands))
  | reset => exact answersInFormat_of_ack (u := s.clearElements) (r := .ra) rfl rfl rfl

end Sys2Proof.Machine
end

section
/-! SUPPORT. Pseudo-operation proofs: the two bytes of a 16-bit value, high byte first (30_encoding.md R74, 20_memory.md R42). -/

namespace Sys2Proof.Machine

theorem hiByte_eq_ofNat (v : BitVec 16) : hiByte v = BitVec.ofNat 8 (v.toNat / 256) :=
  BitVec.eq_of_toNat_eq (by simp [hiByte, Nat.shiftRight_eq_div_pow])

theorem loByte_eq_ofNat (v : BitVec 16) : loByte v = BitVec.ofNat 8 v.toNat :=
  BitVec.eq_of_toNat_eq (by simp [loByte])

theorem valuesBody_eq_flatten (vs : List (BitVec 16)) :
    valuesBody vs = (vs.map fun v => [BitVec.ofNat 8 (v.toNat / 256), BitVec.ofNat 8 v.toNat]).flatten := by
  simp only [valuesBody, List.flatMap_def, hiByte_eq_ofNat, loByte_eq_ofNat]

theorem pseudoRegisterSensor_eq_none_iff (r : RegisterReading) (address cmd id paddr ikey type : Byte) :
    pseudoRegisterSensor r address cmd id paddr ikey type = none ↔ id = wire.reserved := by
  by_cases hid : id = wire.reserved
  · simp [pseudoRegisterSensor, hid]
  · cases h : r.sensorIsFrameIdentity <;> simp [pseudoRegisterSensor, hid, h]

end Sys2Proof.Machine
end

section
/-! SUPPORT. Proofs of the statements of 30_encoding.md. -/

namespace Sys2Proof.Proofs

open Sys2Proof.Machine

/-- Settles O13. -/
theorem decodeOfEncode : Obligations.DecodeOfEncode :=
  ⟨fun _ => decode_encode, fun _ _ hp => Instr.encodable_of_wf hp⟩

/-- Settles O14. -/
theorem encodeOfDecode : Obligations.EncodeOfDecode :=
  fun _ _ => encode_of_decode

/-- Settles O16. -/
theorem responseFormats : Obligations.ResponseFormats := by
  intro s t i hp hcands hinv hwf hexec
  obtain ⟨u, r, hout, hsent, hshape⟩ := answersInFormat_exec hp hcands hinv hwf
  obtain rfl := Host.Outcome.next.inj (hexec.symm.trans hout)
  exact ⟨r.encode, congrArg (· ++ [r.encode]) hsent, hshape⟩

/-- Settles O28: the identity, the terminator and the checksum are the three bytes beside the body. -/
theorem builtFrameLength : Obligations.BuiltFrameLength := by
  intro id body
  rw [build_length_eq_stuff_length, stuff_length, List.length_append, List.length_singleton]
  omega

/-- Settles O1. -/
theorem wireConstantsAndByteSets : Obligations.WireConstantsAndByteSets := by
  refine ⟨rfl, rfl, rfl, rfl, rfl, rfl, rfl, rfl, rfl, fun b => ?_, fun b => ?_, rfl, rfl⟩
  · simp [isIdentity, identitySet, wire]
  · simp [isReserved, reservedSet, isIdentity, wire]

/-- Settles O12: the opcodes of R72 are in no row of the opcode map. -/
theorem illegalOpcodeAnswered : Obligations.IllegalOpcodeAnswered := by
  refine ⟨fun s opc tail rest hopc hin => ?_, fun s rest hin => step_of_decode_error hin rfl, rfl, rfl⟩
  exact step_of_decode_error hin (decode_of_formOf_none (formOf_eq_none_of_illegal hopc) tail)

/-- Settles O15. -/
theorem sampleMessagesDecode : Obligations.SampleMessagesDecode := by
  unfold Obligations.SampleMessagesDecode
  decide

/-- Settles O58. -/
theorem pseudoOperations : Obligations.PseudoOperations := by
  refine ⟨rfl, fun address cmd vs => ?_, fun _ _ _ _ => rfl, pseudoRegisterSensor_eq_none_iff, fun _ => rfl, rfl⟩
  rw [← valuesBody_eq_flatten]
  rfl

end Sys2Proof.Proofs
end

section
/-! SUPPORT. Checksum proofs: `crc8` byte by byte (40_checksum.md R100, R104). -/

namespace Sys2Proof.Machine

@[simp] theorem crc8_nil : crc8 [] = 0x00#8 := rfl

theorem crc8_append (s t : Bytes) : crc8 (s ++ t) = crc8From (crc8 s) t := List.foldl_append

theorem crc8_append_singleton (s : Bytes) (b : Byte) : crc8 (s ++ [b]) = crc8Byte (crc8 s) b := crc8_append s [b]

/-- A byte equal to the accumulator clears it. -/
@[simp] theorem crc8Byte_self (c : Byte) : crc8Byte c c = 0x00#8 := by
  rw [crc8Byte, BitVec.xor_self]
  rfl

theorem crc8_append_self (s : Bytes) : crc8 (s ++ [crc8 s]) = 0x00#8 := by
  rw [crc8_append_singleton, crc8Byte_self]

/-- The checksummed span of the frame in the examples of R102 and R103. -/
def exampleSpan : Bytes := [0xFF#8, 0x01#8, 0x01#8, 0x00#8, 0x05#8]

theorem crc8_exampleSpan : crc8 exampleSpan = 0x5F#8 := by
  decide +kernel

theorem crc8From_zeros (n : Nat) : crc8From 0x00#8 (List.replicate n 0x00#8) = 0x00#8 := by
  induction n with
  | zero => rfl
  | succ n ih => rw [List.replicate_succ, crc8From_cons, crc8Byte_self, ih]

theorem crc8_zeros (n : Nat) : crc8 (List.replicate n 0x00#8) = 0x00#8 := crc8From_zeros n

end Sys2Proof.Machine
end

section
/-! SUPPORT. Polynomial proofs: bytes as polynomials over GF(2) and one CRC step as a product by `x` (40_checksum.md R100,
R104). Everything is said in the quotient ring by the CRC modulus, where a step is an equation. -/

namespace Sys2Proof.Machine

open Sys2Proof.Claims Polynomial

theorem bytePoly_zero : bytePoly 0x00#8 = 0 := by
  simp [bytePoly]

theorem bytePoly_xor (a b : Byte) : bytePoly (a ^^^ b) = bytePoly a + bytePoly b := by
  rw [bytePoly, bytePoly, bytePoly, ← Finset.sum_add_distrib]
  refine Finset.sum_congr rfl fun i _ => ?_
  rw [BitVec.getLsbD_xor]
  cases a.getLsbD i <;> cases b.getLsbD i <;> simp [CharTwo.add_self_eq_zero]

theorem bytePoly_degree_lt (b : Byte) : (bytePoly b).degree < 8 := by
  refine lt_of_le_of_lt (degree_sum_le _ _) ((Finset.sup_lt_iff (by decide)).2 fun i hi => ?_)
  split
  · rw [degree_X_pow]
    exact_mod_cast Finset.mem_range.1 hi
  · rw [degree_zero]
    decide

/-- A left shift moves each bit to the next power of `x` and drops the most significant one. -/
theorem bytePoly_shiftLeft (c : Byte) :
    bytePoly (c <<< 1) = ∑ i ∈ Finset.range 7, if c.getLsbD i then X ^ (i + 1) else 0 := by
  rw [bytePoly, Finset.sum_range_succ']
  have hlow : (c <<< 1).getLsbD 0 = false := by simp
  rw [hlow, if_neg Bool.false_ne_true, add_zero]
  refine Finset.sum_congr rfl fun i hi => ?_
  have hi : i < 7 := Finset.mem_range.1 hi
  have hbit : (c <<< 1).getLsbD (i + 1) = c.getLsbD i := by
    rw [BitVec.getLsbD_shiftLeft]
    simp
    omega
  rw [hbit]

/-- A left shift multiplies by `x`, but for the bit it drops. -/
theorem bytePoly_mul_X (c : Byte) :
    bytePoly c * X = bytePoly (c <<< 1) + if c.msb then X ^ 8 else 0 := by
  rw [bytePoly_shiftLeft, BitVec.msb_eq_getLsbD_last, bytePoly, Finset.sum_mul, Finset.sum_range_succ]
  simp only [ite_mul, zero_mul, ← pow_succ, Nat.reduceSub, Nat.reduceAdd]

theorem bytePoly_crcPoly : bytePoly wire.crcPoly = X ^ 2 + X + 1 := by
  simp [bytePoly, Finset.sum_range_succ, wire]
  ring

theorem crcModulus_eq : crcModulus = X ^ 8 + bytePoly wire.crcPoly := by
  rw [bytePoly_crcPoly, crcModulus]
  ring

theorem crcModulus_monic : crcModulus.Monic := by
  rw [crcModulus_eq]
  exact monic_X_pow_add (bytePoly_degree_lt _)

theorem crcModulus_degree : crcModulus.degree = 8 := by
  rw [crcModulus_eq, degree_add_eq_left_of_degree_lt] <;> rw [degree_X_pow]
  · rfl
  · exact bytePoly_degree_lt _

/-- The class of a polynomial modulo the CRC modulus. -/
noncomputable def residue : (ZMod 2)[X] →+* AdjoinRoot crcModulus := AdjoinRoot.mk crcModulus

theorem residue_X_pow_eight : residue (X ^ 8) = residue (bytePoly wire.crcPoly) := by
  have hmod : residue (X ^ 8 + bytePoly wire.crcPoly) = 0 := by
    rw [← crcModulus_eq]
    exact AdjoinRoot.mk_self
  rw [← sub_eq_zero, ← map_sub, CharTwo.sub_eq_add, hmod]

/-- One shift of the CRC register multiplies by `x`: the polynomial it folds in stands for the bit shifted out. -/
theorem residue_crc8Shift (c : Byte) :
    residue (bytePoly (crc8Shift c)) = residue (bytePoly c) * residue X := by
  rw [← map_mul, bytePoly_mul_X, map_add, crc8Shift]
  cases c.msb with
  | true => simp [bytePoly_xor, residue_X_pow_eight]
  | false => simp

theorem residue_crc8Shifts (n : Nat) (c : Byte) :
    residue (bytePoly (crc8Shifts n c)) = residue (bytePoly c) * residue X ^ n := by
  induction n generalizing c with
  | zero => simp [crc8Shifts]
  | succ n ih => rw [crc8Shifts, ih, residue_crc8Shift, mul_assoc, ← pow_succ']

theorem residue_crc8Byte (c b : Byte) :
    residue (bytePoly (crc8Byte c b)) = residue ((bytePoly c + bytePoly b) * X ^ 8) := by
  rw [crc8Byte, residue_crc8Shifts, bytePoly_xor, map_mul, map_pow]

theorem bytesPoly_append_singleton (s : Bytes) (b : Byte) : bytesPoly (s ++ [b]) = bytesPoly s * X ^ 8 + bytePoly b := by
  simp [bytesPoly]

theorem bytesPoly_singleton (b : Byte) : bytesPoly [b] = bytePoly b := by
  simp [bytesPoly]

theorem residue_crc8 (s : Bytes) : residue (bytePoly (crc8 s)) = residue (bytesPoly s * X ^ 8) := by
  induction s using List.reverseRecOn with
  | nil => simp [bytePoly_zero, bytesPoly]
  | append_singleton s b ih =>
    rw [crc8_append_singleton, residue_crc8Byte, bytesPoly_append_singleton, map_mul, map_add, ih, ← map_add, ← map_mul]

/-- A byte is of smaller degree than the modulus, so it is the remainder of every polynomial of its class. -/
theorem bytePoly_eq_modByMonic {b : Byte} {p : (ZMod 2)[X]} (h : residue (bytePoly b) = residue p) :
    bytePoly b = p.modByMonic crcModulus := by
  have hself : (bytePoly b).modByMonic crcModulus = bytePoly b :=
    (modByMonic_eq_self_iff crcModulus_monic).2 (crcModulus_degree ▸ bytePoly_degree_lt b)
  rw [← hself]
  exact modByMonic_eq_of_dvd_sub crcModulus_monic (AdjoinRoot.mk_eq_mk.1 h)

theorem bytePoly_crc8 (s : Bytes) : bytePoly (crc8 s) = (bytesPoly s * X ^ 8).modByMonic crcModulus :=
  bytePoly_eq_modByMonic (residue_crc8 s)

end Sys2Proof.Machine
end

section
/-! SUPPORT. Answer proofs: what a command of format D that only answers sends back, and what a message that does not fit the
format gets (30_encoding.md R68, R69). -/

namespace Sys2Proof.Machine

open Sys2Proof.Claims

theorem answerData_eq_answered {data : Bytes} {s : State} (h : data.length ≤ s.params.maxCandLen)
    (f : Bytes → Response) : answerData f data s = .next (answered s (f data).encode) :=
  answerData_of_le h f

theorem answerData_eq_errLength {data : Bytes} {s : State} (h : s.params.maxCandLen < data.length)
    (f : Bytes → Response) : answerData f data s = .next (answered s [0x03#8]) :=
  answerData_of_gt h f

theorem decodeData_of_not_fitsD {tail : Bytes} (h : ¬ fitsD tail) : decodeData tail = .error .wrongLength := by
  match tail with
  | [] => rfl
  | [_] => rfl
  | hi :: lo :: data => exact if_neg fun hlen => h ⟨hi, lo, data, rfl, hlen⟩

theorem errFormatUnless_of_decode {opc : Byte} {fits : Bytes → Prop}
    (h : ∀ tail, ¬ fits tail → decode (opc :: tail) = .error .wrongLength) : errFormatUnless opc fits :=
  fun _ tail _ hfit hin => step_of_decode_error hin (h tail hfit)

/-- A row of format D in the opcode map is all that R68 and R69 (2) ask of the command. -/
theorem formatD_of_formOf {opc : Byte} {mk : Bytes → Instr} (hform : formOf opc = some (.d mk)) : formatD opc mk := by
  refine ⟨fun hi lo data hlen => ?_, errFormatUnless_of_decode fun tail hfit => ?_⟩
  · rw [decode_of_formOf hform]
    exact map_decodeData_eq_ok.2 ⟨data, decodeData_eq_ok.2 ⟨hi, lo, rfl, hlen⟩, rfl⟩
  · rw [decode_of_formOf hform, decodeForm, decodeData_of_not_fitsD hfit]
    rfl

end Sys2Proof.Machine
end

section
/-! SUPPORT. Verify proofs: the unstuffed frame that `verify` reads, and the byte it compares (40_checksum.md R101, R103;
41_codec.md R111). -/

namespace Sys2Proof.Machine

open Sys2Proof.Claims

theorem verify_of_short {f : Bytes} (h : (unstuff f).length < 2) : verify f = .checksumFailed := by
  simp [verify, h]

theorem verify_eq_ok_iff {f span : Bytes} {chk last : Byte} (h : unstuff f = span ++ [chk, last]) :
    verify f = .ok ↔ crc8 span = chk := by
  have hlen : ¬ (span ++ [chk, last]).length < 2 := by simp
  have hspan : (span ++ [chk, last]).length - 2 = span.length := by simp
  simp only [verify, h, hspan, slice_zero, List.take_left, List.getElem?_append_right le_rfl, Nat.sub_self,
    List.getElem?_cons_zero, if_neg hlen, Option.some_inj, eq_comm (a := chk)]
  split
  case isTrue heq => exact iff_of_true rfl heq
  case isFalse hne => exact iff_of_false nofun hne

theorem verify_byte (f : Bytes) : (verify f).byte = if verify f = .ok then 0x00#8 else 0x08#8 := by
  rcases verify_cases f with h | h <;> rw [h] <;> rfl

/-- Unstuffing drops at most every other byte, and a dangling escape. -/
theorem length_le_two_mul_unstuff (s : Bytes) : s.length ≤ 2 * (unstuff s).length + 1 := by
  induction s using unstuff.induct with
  | case1 => simp
  | case2 => simp
  | case3 b h => simp
  | case4 x s ih =>
    rw [unstuff_esc_cons]
    simp only [List.length_cons]
    omega
  | case5 b x s h ih =>
    rw [unstuff_cons_of_ne h]
    simp only [List.length_cons] at ih ⊢
    omega

/-- The identity of a complete candidate is kept, and at least four bytes follow it. -/
theorem unstuff_length_of_complete {c : Bytes} (h : isComplete c = true) : 3 ≤ (unstuff c).length := by
  obtain ⟨hlen, ⟨b, s, rfl, hb⟩, -⟩ := (isComplete_iff c).1 h
  have hs := length_le_two_mul_unstuff s
  rw [unstuff_cons_of_ne (isIdentity_ne_esc hb), List.length_cons]
  rw [List.length_cons] at hlen
  omega

@[simp] theorem danglingFree_esc_cons (x : Byte) (s : Bytes) : danglingFree (wire.esc :: x :: s) = danglingFree s :=
  if_pos rfl

theorem danglingFree_cons_of_ne {b : Byte} (h : b ≠ wire.esc) (s : Bytes) :
    danglingFree (b :: s) = danglingFree s := by
  cases s with
  | nil => exact bne_iff_ne.2 h
  | cons x s => exact if_neg h

/-- Where no escape dangles, what follows is unstuffed by itself. -/
theorem unstuff_append_of_danglingFree {pre : Bytes} (h : danglingFree pre = true) (s : Bytes) :
    unstuff (pre ++ s) = unstuff pre ++ unstuff s := by
  induction pre using unstuff.induct with
  | case1 => rfl
  | case2 => cases h
  | case3 b hb => simp [unstuff_cons_of_ne hb]
  | case4 x pre ih =>
    rw [danglingFree_esc_cons] at h
    simp [ih h]
  | case5 b x pre hb ih =>
    rw [danglingFree_cons_of_ne hb] at h
    rw [List.cons_append, unstuff_cons_of_ne hb, unstuff_cons_of_ne hb, ih h, List.cons_append]

theorem unstuff_singleton {b : Byte} (h : b ≠ wire.esc) : unstuff [b] = [b] := unstuff_cons_of_ne h []

/-- `verify` of a sequence whose last bytes, `tail`, unstuff to one byte: the byte compared is the one before it. -/
theorem verify_append_eq_ok_iff {pre p : Bytes} {b last : Byte} (hfree : danglingFree pre = true)
    (hpre : unstuff pre = p ++ [b]) {tail : Bytes} (htail : unstuff tail = [last]) :
    verify (pre ++ tail) = .ok ↔ crc8 p = b :=
  verify_eq_ok_iff (last := last) (by rw [unstuff_append_of_danglingFree hfree, hpre, htail, List.append_assoc]; rfl)

end Sys2Proof.Machine
end

section
/-! SUPPORT. Proofs of the statements of 40_checksum.md. -/

namespace Sys2Proof.Proofs

open Sys2Proof.Machine Sys2Proof.Claims

/-- Settles O18. -/
theorem crc8IsPolynomialRemainder : Obligations.Crc8IsPolynomialRemainder := bytePoly_crc8

/-- Settles O17: the last law is the remainder of a message of one byte. -/
theorem crc8Laws : Obligations.Crc8Laws := by
  refine ⟨crc8_nil, crc8_append, crc8_append_self, crc8_zeros, fun b => ?_⟩
  rw [bytePoly_crc8, bytesPoly_singleton]

/-- Settles O19. -/
theorem crc8Command : Obligations.Crc8Command :=
  ⟨fun _ _ hlen => answerData_eq_answered hlen fun d => .rb (crc8 d),
    fun _ _ hlen => answerData_eq_errLength hlen fun d => .rb (crc8 d),
    formatD_of_formOf rfl, crc8_nil, crc8_zeros, crc8_append_self, crc8_exampleSpan⟩

/-- Settles O20. -/
theorem verifyComparesUnstuffedChecksum : Obligations.VerifyComparesUnstuffedChecksum :=
  fun f => ⟨verify_cases f, verify_of_short, fun _ _ _ => verify_eq_ok_iff, unstuff_length_of_complete⟩

/-- Settles O21: each corner case is what its bytes unstuff to. -/
theorem verifyCommand : Obligations.VerifyCommand := by
  refine ⟨fun s data hlen => ?_, fun s data hlen => answerData_eq_errLength hlen fun d => .rb (verify d).byte,
    formatD_of_formOf rfl, verify_of_short Nat.zero_lt_two, fun b => ?_, fun x => ?_, fun pre chk hfree => ?_,
    fun pre p b hfree hpre => ?_, fun pre p last hfree hpre hlast => ?_, ?_, ?_⟩
  · rw [← verify_byte]
    exact answerData_eq_answered hlen fun d => .rb (verify d).byte
  · exact verify_of_short (Nat.lt_succ_of_le (unstuff_length_le [b]))
  · have hpair : unstuff [0x7E#8, x] = [x] := unstuff_esc_cons x []
    exact verify_of_short (by simp [hpair])
  · exact verify_eq_ok_iff (last := 0xEE#8) (unstuff_append_of_danglingFree hfree _)
  · exact verify_append_eq_ok_iff hfree hpre (last := 0xEE#8) rfl
  · exact (verify_append_eq_ok_iff hfree hpre (unstuff_singleton hlast)).2 rfl
  · exact (verify_eq_ok_iff (span := exampleSpan) rfl).2 crc8_exampleSpan
  · refine (verify_cases _).resolve_left fun hok => ?_
    have hcrc := (verify_eq_ok_iff (span := exampleSpan) rfl).1 hok
    rw [crc8_exampleSpan] at hcrc
    exact absurd hcrc (by decide)

end Sys2Proof.Proofs
end

section
/-! SUPPORT. Codec proofs: `stuff` and `unstuff` by the kind of the first byte, the source's stuffing procedure, and what a
stuffed sequence unstuffs to (41_codec.md R110, R111, R116). -/

namespace Sys2Proof.Machine

open Sys2Proof.Claims

theorem isReserved_of_isIdentity {b : Byte} (h : isIdentity b = true) : isReserved b = true := by
  simp only [isReserved, reservedSet, List.contains_append, Bool.or_eq_true]
  exact .inl h

theorem isReserved_term : isReserved wire.term = true := rfl

theorem isReserved_esc : isReserved wire.esc = true := rfl

theorem ne_esc_of_not_reserved {b : Byte} (h : isReserved b = false) : b ≠ wire.esc := by
  rintro rfl
  exact absurd (isReserved_esc.symm.trans h) nofun

theorem stuff_cons_of_reserved {b : Byte} (h : isReserved b = true) (s : Bytes) :
    stuff (b :: s) = wire.esc :: b :: stuff s := if_pos h

theorem stuff_cons_of_not_reserved {b : Byte} (h : isReserved b = false) (s : Bytes) :
    stuff (b :: s) = b :: stuff s := if_neg (Bool.eq_false_iff.1 h)

theorem length_le_stuff_length (s : Bytes) : s.length ≤ (stuff s).length := by
  rw [stuff_length]
  omega

theorem stuff_length_of_all_reserved {s : Bytes} (h : ∀ b ∈ s, isReserved b = true) :
    (stuff s).length = 2 * s.length := by
  rw [stuff_length, List.countP_eq_length.2 h, Nat.two_mul]

/-- One visit of the source's procedure, at the byte `b` before the part `t` that is already stuffed. -/
theorem stuffFromEnd_visit (s : Bytes) (b : Byte) (t : Bytes) :
    stuffFromEnd (s.length + 1) (s ++ b :: t) = stuffFromEnd s.length (s ++ (stuff [b] ++ t)) := by
  have hbyte : (s ++ b :: t)[s.length]? = some b := by simp
  have hinsert : (s ++ b :: t).insertIdx s.length wire.esc = s ++ wire.esc :: b :: t :=
    List.modifyTailIdx_add (List.cons wire.esc) 0 s (b :: t)
  rw [stuffFromEnd, hbyte, Option.any_some]
  cases hb : isReserved b with
  | true => rw [if_pos rfl, stuff_cons_of_reserved hb]; exact congrArg _ hinsert
  | false => rw [if_neg nofun, stuff_cons_of_not_reserved hb]; rfl

/-- From the end toward the start: what lies behind the indices still to be visited stays as it is. -/
theorem stuffFromEnd_append (s t : Bytes) : stuffFromEnd s.length (s ++ t) = stuff s ++ t := by
  induction s using List.reverseRecOn generalizing t with
  | nil => rfl
  | append_singleton s b ih =>
    rw [List.length_append, List.length_singleton, List.append_assoc, List.singleton_append, stuffFromEnd_visit, ih,
      stuff_append, List.append_assoc]

@[simp] theorem unescaped_nil : unescaped [] = [] := rfl

@[simp] theorem unescaped_esc_cons (x : Byte) (s : Bytes) : unescaped (wire.esc :: x :: s) = unescaped s := if_pos rfl

theorem unescaped_cons_of_ne {b : Byte} (h : b ≠ wire.esc) (s : Bytes) : unescaped (b :: s) = b :: unescaped s := by
  cases s with
  | nil => exact if_neg h
  | cons x s => exact if_neg h

@[simp] theorem escapeCount_esc_cons (x : Byte) (s : Bytes) : escapeCount (wire.esc :: x :: s) = 1 + escapeCount s :=
  if_pos rfl

theorem escapeCount_cons_of_ne {b : Byte} (h : b ≠ wire.esc) (s : Bytes) : escapeCount (b :: s) = escapeCount s := by
  cases s with
  | nil => exact if_neg h
  | cons x s => exact if_neg h

/-- Unstuffing removes the escapes and nothing else. -/
theorem unstuff_length_add_escapeCount (s : Bytes) : (unstuff s).length + escapeCount s = s.length := by
  induction s using unstuff.induct with
  | case1 => rfl
  | case2 => rfl
  | case3 b h => rw [unstuff_cons_of_ne h, escapeCount_cons_of_ne h]; rfl
  | case4 x s ih =>
    rw [unstuff_esc_cons, escapeCount_esc_cons]
    simp only [List.length_cons]
    omega
  | case5 b x s h ih =>
    rw [unstuff_cons_of_ne h, escapeCount_cons_of_ne h]
    simp only [List.length_cons] at ih ⊢
    omega

/-- Where no escape dangles, what follows is paired by itself. -/
theorem unescaped_append_of_danglingFree {pre : Bytes} (h : danglingFree pre = true) (s : Bytes) :
    unescaped (pre ++ s) = unescaped pre ++ unescaped s := by
  induction pre using unstuff.induct with
  | case1 => rfl
  | case2 => cases h
  | case3 b hb => simp [unescaped_cons_of_ne hb]
  | case4 x pre ih =>
    rw [danglingFree_esc_cons] at h
    simp [ih h]
  | case5 b x pre hb ih =>
    rw [danglingFree_cons_of_ne hb] at h
    rw [List.cons_append, unescaped_cons_of_ne hb, unescaped_cons_of_ne hb, ih h, List.cons_append]

theorem danglingFree_stuff (s : Bytes) : danglingFree (stuff s) = true := by
  induction s with
  | nil => rfl
  | cons b s ih =>
    cases hb : isReserved b with
    | true => rw [stuff_cons_of_reserved hb, danglingFree_esc_cons, ih]
    | false => rw [stuff_cons_of_not_reserved hb, danglingFree_cons_of_ne (ne_esc_of_not_reserved hb), ih]

theorem unstuff_stuff (s : Bytes) : unstuff (stuff s) = s := by
  induction s with
  | nil => rfl
  | cons b s ih =>
    cases hb : isReserved b with
    | true => rw [stuff_cons_of_reserved hb, unstuff_esc_cons, ih]
    | false => rw [stuff_cons_of_not_reserved hb, unstuff_cons_of_ne (ne_esc_of_not_reserved hb), ih]

/-- The unescaped bytes of a stuffed sequence are the bytes `stuff` had no need to escape. -/
theorem unescaped_stuff (s : Bytes) : unescaped (stuff s) = s.filter fun b => !isReserved b := by
  induction s with
  | nil => rfl
  | cons b s ih =>
    cases hb : isReserved b with
    | true => simp [stuff_cons_of_reserved hb, ih, hb]
    | false => simp [stuff_cons_of_not_reserved hb, unescaped_cons_of_ne (ne_esc_of_not_reserved hb), ih, hb]

theorem not_reserved_of_mem_unescaped_stuff {s : Bytes} {b : Byte} (h : b ∈ unescaped (stuff s)) :
    isReserved b = false := by
  rw [unescaped_stuff, List.mem_filter] at h
  simpa using h.2

end Sys2Proof.Machine
end

section
/-! SUPPORT. Frame proofs: what a built frame unstuffs to, which of its bytes are unescaped, and when it is complete
(41_codec.md R112, R116; 42_classifier.md R120). -/

namespace Sys2Proof.Machine

open Sys2Proof.Claims

theorem isIdentity_ne_term {b : Byte} (h : isIdentity b = true) : b ≠ wire.term := by
  rintro rfl
  revert h
  decide

/-- What a frame has before its terminator leaves no escape open. -/
theorem danglingFree_identity_stuff {id : Byte} (h : isIdentity id = true) (s : Bytes) :
    danglingFree (id :: stuff s) = true := by
  rw [danglingFree_cons_of_ne (isIdentity_ne_esc h), danglingFree_stuff]

theorem unstuff_build {id : Byte} (h : isIdentity id = true) (body : Bytes) :
    unstuff (build id body) = ([id] ++ body) ++ [crc8 ([id] ++ body), wire.term] := by
  calc unstuff (build id body)
      = unstuff (id :: stuff (body ++ [crc8 ([id] ++ body)])) ++ [wire.term] :=
        unstuff_append_of_danglingFree (danglingFree_identity_stuff h _) [wire.term]
    _ = ([id] ++ body) ++ [crc8 ([id] ++ body), wire.term] := by
        rw [unstuff_cons_of_ne (isIdentity_ne_esc h), unstuff_stuff]
        simp

theorem verify_build {id : Byte} (h : isIdentity id = true) (body : Bytes) : verify (build id body) = .ok :=
  (verify_eq_ok_iff (unstuff_build h body)).2 rfl

/-- The identity and the terminator are the only unescaped reserved bytes of a frame. -/
theorem unescaped_build {id : Byte} (h : isIdentity id = true) (body : Bytes) :
    unescaped (build id body) = id :: unescaped (stuff (body ++ [crc8 ([id] ++ body)])) ++ [wire.term] := by
  rw [← unescaped_cons_of_ne (isIdentity_ne_esc h)]
  exact unescaped_append_of_danglingFree (danglingFree_identity_stuff h _) [wire.term]

theorem term_not_mem_unescaped_stuff (s : Bytes) : wire.term ∉ unescaped (stuff s) := fun h =>
  absurd (isReserved_term.symm.trans (not_reserved_of_mem_unescaped_stuff h)) nofun

theorem isComplete_of_length_le {c : Bytes} (h : c.length ≤ 4) : isComplete c = false :=
  Bool.eq_false_iff.2 fun hc => Nat.not_lt.2 h ((isComplete_iff c).1 hc).1

/-- The shape of a built frame leaves only the length bound of R120 to be met. -/
theorem isComplete_build_iff {id : Byte} (h : isIdentity id = true) (body : Bytes) :
    isComplete (build id body) = true ↔ 3 ≤ (stuff (body ++ [crc8 ([id] ++ body)])).length := by
  have hhead : ∃ b s, build id body = b :: s ∧ isIdentity b = true := ⟨id, _, rfl, h⟩
  have hlast : (build id body).getLast? = some wire.term := List.getLast?_concat
  rw [isComplete_iff, and_iff_left ⟨hhead, hlast⟩, build_length_eq_stuff_length]
  omega

theorem isComplete_build_of_two_le {id : Byte} (h : isIdentity id = true) {body : Bytes} (hlen : 2 ≤ body.length) :
    isComplete (build id body) = true := by
  have hstuff := length_le_stuff_length (body ++ [crc8 ([id] ++ body)])
  rw [List.length_append, List.length_singleton] at hstuff
  exact (isComplete_build_iff h body).2 (by omega)

theorem build_nil_length (id : Byte) : (build id []).length = 3 ∨ (build id []).length = 4 := by
  rw [build_length_eq_stuff_length, stuff_length, List.nil_append, List.countP_singleton]
  split
  · exact .inr rfl
  · exact .inl rfl

theorem isComplete_build_nil (id : Byte) : isComplete (build id []) = false :=
  isComplete_of_length_le (by have := build_nil_length id; omega)

/-- A body of one byte needs one escape to reach the five bytes of R120. -/
theorem isComplete_build_singleton_iff {id : Byte} (h : isIdentity id = true) (b : Byte) :
    isComplete (build id [b]) = true ↔ isReserved b = true ∨ isReserved (crc8 [id, b]) = true := by
  have hcount : 3 ≤ (stuff [b, crc8 [id, b]]).length ↔ 0 < [b, crc8 [id, b]].countP isReserved := by
    rw [stuff_length]
    simp only [List.length_cons, List.length_nil]
    omega
  rw [isComplete_build_iff h]
  exact hcount.trans (by simp [List.countP_pos_iff])

theorem build_of_reserved_checksum {id : Byte} {body : Bytes} (h : isReserved (crc8 ([id] ++ body)) = true) :
    build id body = (id :: stuff body) ++ [wire.esc, crc8 ([id] ++ body), wire.term] := by
  rw [build, stuff_append, stuff_cons_of_reserved h]
  simp

end Sys2Proof.Machine
end

section
/-! SUPPORT. BUILD proofs: what BUILD answers in the order of its checks, and its message format (41_codec.md R115;
30_encoding.md R68, R69). -/

namespace Sys2Proof.Machine

open Sys2Proof.Claims

theorem execBuild_eq_answered {idb : Byte} {data : Bytes} {s : State} (hlen : data.length ≤ s.params.maxCandLen)
    (hid : isIdentity idb = true) :
    execBuild idb data s = .next (answered s ([0x00#8] ++ lenField (build idb data).length ++ build idb data)) :=
  (checkLength_of_le hlen _).trans (checkIdentity_of_mem hid s _)

theorem execBuild_eq_errLength {data : Bytes} {s : State} (hlen : s.params.maxCandLen < data.length) (idb : Byte) :
    execBuild idb data s = .next (answered s [0x03#8]) :=
  checkLength_of_gt hlen _

theorem execBuild_eq_errIdentity {idb : Byte} {data : Bytes} {s : State} (hlen : data.length ≤ s.params.maxCandLen)
    (hid : isIdentity idb = false) : execBuild idb data s = .next (answered s [0x04#8]) :=
  (checkLength_of_le hlen _).trans (checkIdentity_of_not_mem hid s _)

theorem decode_build {hi lo : Byte} {data : Bytes} (hlen : data.length = hi.toNat * 256 + lo.toNat) (idb : Byte) :
    decode (0x06#8 :: idb :: hi :: lo :: data) = .ok (.build idb data) := by
  rw [decode_of_formOf (form := .id .build) rfl]
  exact map_decodeData_eq_ok.2 ⟨data, decodeData_eq_ok.2 ⟨hi, lo, rfl, hlen⟩, rfl⟩

theorem decode_build_of_not_fitsID {tail : Bytes} (h : ¬ fitsID tail) :
    decode (0x06#8 :: tail) = .error .wrongLength := by
  rw [decode_of_formOf (form := .id .build) rfl]
  cases tail with
  | nil => rfl
  | cons idb rest =>
    rw [decodeForm, decodeData_of_not_fitsD fun hrest => h ⟨idb, rest, rfl, hrest⟩]
    rfl

theorem build_exampleBody :
    build 0xFF#8 [0x01#8, 0x01#8, 0x00#8, 0x05#8] = [0xFF#8, 0x01#8, 0x01#8, 0x00#8, 0x05#8, 0x5F#8, 0xEE#8] :=
  congrArg (fun c => [0xFF#8] ++ stuff ([0x01#8, 0x01#8, 0x00#8, 0x05#8] ++ [c]) ++ [wire.term]) crc8_exampleSpan

end Sys2Proof.Machine
end

section
/-! SUPPORT. Proofs of the statements of 41_codec.md. -/

namespace Sys2Proof.Proofs

open Sys2Proof.Machine Sys2Proof.Claims

/-- Settles O22. -/
theorem stuffEscapesEveryReservedByte : Obligations.StuffEscapesEveryReservedByte := by
  refine ⟨stuff_nil, stuff_cons, stuff_length, fun s => ?_⟩
  simpa using stuffFromEnd_append s []

/-- Settles O23. -/
theorem unstuffKeepsTheByteAfterAnEscape : Obligations.UnstuffKeepsTheByteAfterAnEscape :=
  ⟨unstuff_nil, unstuff_esc_alone, unstuff_esc_cons, fun _ s hb => unstuff_cons_of_ne hb s,
    unstuff_length_add_escapeCount, unstuff_esc_cons 0x41#8 []⟩

/-- Settles O24. -/
theorem unstuffOfStuff : Obligations.UnstuffOfStuff := ⟨unstuff_stuff, by decide⟩

/-- Settles O25. -/
theorem builtFrameUnstuffsAndVerifies : Obligations.BuiltFrameUnstuffsAndVerifies :=
  fun _ body hid => ⟨unstuff_build hid body, verify_build hid body⟩

/-- Settles O26. -/
theorem builtFrameCompleteness : Obligations.BuiltFrameCompleteness := by
  refine fun id body hid => ⟨isComplete_build_iff hid body, isComplete_build_of_two_le hid, ?_, ?_⟩
  · rintro rfl
    exact isComplete_build_nil id
  · rintro b rfl
    exact isComplete_build_singleton_iff hid b

/-- Settles O27: the part before the last byte is the identity and the unescaped bytes of a stuffed region. -/
theorem onlyTheLastTerminatorIsUnescaped : Obligations.OnlyTheLastTerminatorIsUnescaped := by
  refine ⟨fun _ _ => not_reserved_of_mem_unescaped_stuff, fun id body hid => ⟨_, unescaped_build hid body, ?_⟩⟩
  exact List.not_mem_cons_of_ne_of_not_mem (isIdentity_ne_term hid).symm (term_not_mem_unescaped_stuff _)

/-- Settles O29. -/
theorem stuffCommand : Obligations.StuffCommand :=
  ⟨fun _ _ hlen => answerData_eq_answered hlen fun d => .rd (stuff d),
    fun _ _ hlen => answerData_eq_errLength hlen fun d => .rd (stuff d),
    formatD_of_formOf rfl, stuff_nil, stuff_length_le, fun _ => stuff_length_of_all_reserved, rfl,
    fun _ data hb => stuff_cons_of_reserved (isReserved_of_isIdentity hb) data, rfl⟩

/-- Settles O31: the largest length is twice the body and the checksum, beside the identity and the terminator. -/
theorem buildCommand : Obligations.BuildCommand :=
  ⟨fun _ _ _ => execBuild_eq_answered, fun _ idb _ hlen => execBuild_eq_errLength hlen idb,
    fun _ _ _ => execBuild_eq_errIdentity, fun idb _ _ _ hlen => decode_build hlen idb,
    errFormatUnless_of_decode fun _ => decode_build_of_not_fitsID, fun _ _ => rfl,
    fun idb => ⟨build_nil_length idb, isComplete_build_nil idb⟩,
    fun _ _ hchk => ⟨_, build_of_reserved_checksum hchk⟩, build_length_le, build_exampleBody⟩

/-- Settles O30. -/
theorem unstuffCommand : Obligations.UnstuffCommand :=
  ⟨fun _ _ hlen => answerData_eq_answered hlen fun d => .rd (unstuff d),
    fun _ _ hlen => answerData_eq_errLength hlen fun d => .rd (unstuff d),
    formatD_of_formOf rfl, rfl, rfl, rfl, rfl, rfl⟩

end Sys2Proof.Proofs
end

section
/-! SUPPORT. Classifier proofs: the identities and the first byte of a complete candidate as R120 names them, and the last byte
that `unstuff` keeps (42_classifier.md R120, R122). -/

namespace Sys2Proof.Machine

theorem isIdentity_iff (b : Byte) :
    isIdentity b = true ↔ b = wire.init ∨ b = wire.comm ∨ b = wire.heartbeat ∨ b = wire.sensor := by
  simp [isIdentity, identitySet]

/-- `isComplete_iff` with the first byte read by `head?`. -/
theorem isComplete_iff_head? (c : Bytes) :
    isComplete c = true ↔
      4 < c.length ∧ (∃ b, c.head? = some b ∧ isIdentity b = true) ∧ c.getLast? = some wire.term := by
  simp only [isComplete_iff, List.head?_eq_some_iff, exists_and_right]

/-- A last byte that is no escape is kept, as a plain byte or as the byte an escape pairs with. That escape dangles in `s`
alone, where `unstuff` drops it too, so what comes before the byte is the same in both cases. -/
theorem unstuff_append_singleton_of_ne {b : Byte} (hb : b ≠ wire.esc) (s : Bytes) :
    unstuff (s ++ [b]) = unstuff s ++ [b] := by
  induction s using unstuff.induct with
  | case1 => exact unstuff_singleton hb
  | case2 => exact unstuff_esc_cons b []
  | case3 a ha => rw [List.singleton_append, unstuff_cons_of_ne ha, unstuff_singleton hb, unstuff_singleton ha]; rfl
  | case4 x s ih => rw [List.cons_append, List.cons_append, unstuff_esc_cons, unstuff_esc_cons, ih]; rfl
  | case5 a x s ha ih => rw [List.cons_append, unstuff_cons_of_ne ha, unstuff_cons_of_ne ha, ih]; rfl

theorem unstuff_getLast?_of_complete {c : Bytes} (h : isComplete c = true) :
    (unstuff c).getLast? = some wire.term := by
  obtain ⟨-, -, hlast⟩ := (isComplete_iff c).1 h
  obtain ⟨s, rfl⟩ := List.getLast?_eq_some_iff.1 hlast
  rw [unstuff_append_singleton_of_ne (by decide), List.getLast?_concat]

theorem unstuff_head?_of_complete {c : Bytes} (h : isComplete c = true) : (unstuff c).head? = c.head? := by
  obtain ⟨_, -, hu, hc⟩ := unstuff_head_of_complete h
  exact hu.trans hc.symm

end Sys2Proof.Machine
end

section
/-! SUPPORT. Proofs of the statements of 42_classifier.md. -/

namespace Sys2Proof.Proofs

open Sys2Proof.Machine Sys2Proof.Claims

/-- Settles O32: `rfl` reads the wire constants of R60. -/
theorem completeCandidates : Obligations.CompleteCandidates := by
  intro c
  simp only [isComplete_iff_head?, isIdentity_iff]
  rfl

/-- Settles O33: an INIT frame split after its second byte is complete although neither part is. -/
theorem classifierLaws : Obligations.ClassifierLaws :=
  ⟨fun _ => isComplete_of_length_le, fun _ hc => ⟨unstuff_length_of_complete hc, unstuff_head?_of_complete hc⟩,
    fun _ => unstuff_getLast?_of_complete, fun _ _ _ _ heq => congrArg isComplete heq,
    [0xFF#8, 0x01#8], [0x01#8, 0x00#8, 0x05#8, 0x5F#8, 0xEE#8], by decide⟩

/-- Settles O34: neither the escape nor 0xDE is an identity. -/
theorem classifyCommand : Obligations.ClassifyCommand :=
  ⟨fun _ _ hlen => answerData_eq_answered hlen fun d => .rb (boolByte (isComplete d)),
    fun _ _ hlen => answerData_eq_errLength hlen fun d => .rb (boolByte (isComplete d)),
    formatD_of_formOf rfl, fun _ => isComplete_of_length_le, isComplete_of_not_identity rfl _, rfl,
    isComplete_of_not_identity rfl, rfl, isComplete_of_length_le (by decide)⟩

end Sys2Proof.Proofs
end

section
/-! SUPPORT. Reassembly proofs: what an incomplete candidate does in each state of the pending slot, and a DRAIN of one
candidate or of a run that never completes (43_reassembly.md R131 to R135). -/

namespace Sys2Proof.Machine

open Sys2Proof.Claims

/-! ### One candidate inside a DRAIN -/

theorem file_of_not_mem {k : Key} {cy : Cycle} (h : k ∉ cy.seen) (e : Entry) :
    file k e cy = { cy with seen := k :: cy.seen, table := cy.table.set k e } :=
  if_neg h

section
variable {lb : Nat} {c : Bytes} {cy : Cycle}

theorem process_of_incomplete (hc : isComplete c = false) : process lb c cy = reasm lb c cy := by
  simp [process, hc]

/-- R131. -/
theorem process_of_empty (hc : isComplete c = false) (hp : cy.pstate = .empty) :
    process lb c cy = .ok { cy with pstate := .pending, pbuf := c } := by
  simp [process_of_incomplete hc, reasm, hp]

/-- R133: completion comes before the length bound. -/
theorem process_of_completing (hc : isComplete c = false) (hp : cy.pstate = .pending)
    (hq : isComplete (cy.pbuf ++ c) = true) :
    process lb c cy = fileDecoded (decodeFrame (cy.pbuf ++ c)) { cy with pstate := .empty, pbuf := [] } := by
  simp [process_of_incomplete hc, reasm, hp, hq]

theorem process_of_completing_entry {k : Key} {e : Entry} (hc : isComplete c = false) (hp : cy.pstate = .pending)
    (hq : isComplete (cy.pbuf ++ c) = true) (hd : decodeFrame (cy.pbuf ++ c) = .entry k e) :
    process lb c cy = .ok (file k e { cy with pstate := .empty, pbuf := [] }) := by
  rw [process_of_completing hc hp hq, hd, fileDecoded]

theorem process_of_completing_drop (hc : isComplete c = false) (hp : cy.pstate = .pending)
    (hq : isComplete (cy.pbuf ++ c) = true) (hd : decodeFrame (cy.pbuf ++ c) = .drop) :
    process lb c cy = .ok { cy with pstate := .empty, pbuf := [] } := by
  rw [process_of_completing hc hp hq, hd, fileDecoded]

/-- R134, beyond the bound. -/
theorem process_of_overlong (hc : isComplete c = false) (hp : cy.pstate = .pending)
    (hq : isComplete (cy.pbuf ++ c) = false) (hlen : lb < (cy.pbuf ++ c).length) :
    process lb c cy = .ok { cy with pstate := .empty, pbuf := [] } := by
  simp only [process_of_incomplete hc, reasm, hp, hq, if_pos hlen, Bool.false_eq_true, if_false]

/-- R134, up to the bound. -/
theorem process_of_within (hc : isComplete c = false) (hp : cy.pstate = .pending)
    (hq : isComplete (cy.pbuf ++ c) = false) (hlen : (cy.pbuf ++ c).length ≤ lb) :
    process lb c cy = .ok { cy with pbuf := cy.pbuf ++ c } := by
  simp only [process_of_incomplete hc, reasm, hp, hq, if_neg (Nat.not_lt.2 hlen), Bool.false_eq_true, if_false]

end

/-! ### A run of candidates that stays incomplete and within the bound -/

/-- Such a run is appended to what was pending. -/
theorem drainLoop_of_within {lb : Nat} {run : List Bytes} {cy : Cycle} (hp : cy.pstate = .pending)
    (hrun : ∀ c ∈ run, isComplete c = false) (hq : ∀ cs, cs <+: run → isComplete (cy.pbuf ++ cs.flatten) = false)
    (hlen : (cy.pbuf ++ run.flatten).length ≤ lb) :
    drainLoop lb run cy = .ok { cy with pbuf := cy.pbuf ++ run.flatten } := by
  induction run generalizing cy with
  | nil => simp
  | cons c run ih =>
    rw [List.flatten_cons, ← List.append_assoc] at hlen ⊢
    have hqc : isComplete (cy.pbuf ++ c) = false := by simpa using hq [c] (by simp)
    have hlenc : (cy.pbuf ++ c).length ≤ lb := by
      rw [List.length_append] at hlen
      omega
    have hstep : process lb c cy = .ok { cy with pbuf := cy.pbuf ++ c } :=
      process_of_within (hrun c List.mem_cons_self) hp hqc hlenc
    have hqrun : ∀ cs, cs <+: run → isComplete (cy.pbuf ++ c ++ cs.flatten) = false := by
      intro cs hcs
      simpa using hq (c :: cs) (by simpa using hcs)
    rw [drainLoop_cons hstep]
    exact ih (cy := { cy with pbuf := cy.pbuf ++ c }) hp (fun x hx => hrun x (List.mem_cons_of_mem _ hx)) hqrun hlen

/-! ### PUSH and DRAIN as commands -/

theorem exec_push_of_room {data : Bytes} {s : State} (hlen : data.length ≤ s.params.maxCandLen)
    (hroom : s.cq.length ≠ s.params.maxCands) :
    exec (.push data) s = .next (answered { s with cq := s.cq ++ [data] } [0x00#8]) :=
  (checkLength_of_le hlen _).trans (checkQueue_of_ne hroom _)

theorem exec_drain_of_loop {s : State} {cy : Cycle}
    (h : drainLoop s.params.lossBound s.cq.reverse s.startCycle = .ok cy) :
    exec .drain s = .next (answered (s.endCycle cy) [0x00#8]) :=
  execDrain_of_loop h

/-- A DRAIN of one candidate is that candidate's step. -/
theorem exec_drain_of_process {s : State} {c : Bytes} {cy : Cycle} (hcq : s.cq = [c])
    (h : process s.params.lossBound c s.startCycle = .ok cy) :
    exec .drain s = .next (answered (s.endCycle cy) [0x00#8]) := by
  refine exec_drain_of_loop ?_
  rw [hcq, List.reverse_singleton, drainLoop_cons h, drainLoop_nil]

section
variable {s : State} {c : Bytes}

theorem exec_drain_of_empty (hc : isComplete c = false) (hp : s.pstate = .empty) (hcq : s.cq = [c]) :
    exec .drain s = .next (answered { s with pstate := .pending, pbuf := c, cq := [] } [0x00#8]) :=
  exec_drain_of_process hcq (process_of_empty hc hp)

theorem exec_drain_of_completing_entry {k : Key} {e : Entry} (hc : isComplete c = false) (hp : s.pstate = .pending)
    (hcq : s.cq = [c]) (hq : isComplete (s.pbuf ++ c) = true) (hd : decodeFrame (s.pbuf ++ c) = .entry k e) :
    exec .drain s = .next (answered
      { s with pstate := .empty, pbuf := [], table := s.table.set k e, cq := [] } [0x00#8]) := by
  rw [exec_drain_of_process hcq (process_of_completing_entry hc hp hq hd), file_of_not_mem List.not_mem_nil]
  rfl

theorem exec_drain_of_completing_drop (hc : isComplete c = false) (hp : s.pstate = .pending) (hcq : s.cq = [c])
    (hq : isComplete (s.pbuf ++ c) = true) (hd : decodeFrame (s.pbuf ++ c) = .drop) :
    exec .drain s = .next (answered { s with pstate := .empty, pbuf := [], cq := [] } [0x00#8]) :=
  exec_drain_of_process hcq (process_of_completing_drop hc hp hq hd)

/-- A completing fragment empties the slot and the queue, and decides the table by what the rebuilt frame decodes to. -/
theorem exec_drain_of_completing (hc : isComplete c = false) (hp : s.pstate = .pending) (hcq : s.cq = [c])
    (hq : isComplete (s.pbuf ++ c) = true) :
    ∃ t, exec .drain s = .next t ∧ t.pstate = .empty ∧ t.pbuf = [] ∧ t.cq = [] ∧
      (∀ k e, decodeFrame (s.pbuf ++ c) = .entry k e → t.table = s.table.set k e) ∧
      (decodeFrame (s.pbuf ++ c) = .drop → t.table = s.table) := by
  cases hd : decodeFrame (s.pbuf ++ c) with
  | entry k e =>
    refine ⟨_, exec_drain_of_completing_entry hc hp hcq hq hd, rfl, rfl, rfl, fun k' e' h => ?_, nofun⟩
    obtain ⟨rfl, rfl⟩ := Decoded.entry.inj h
    rfl
  | drop => exact ⟨_, exec_drain_of_completing_drop hc hp hcq hq hd, rfl, rfl, rfl, nofun, fun _ => rfl⟩
  | unrecognized => exact absurd hd (decodeFrame_ne_unrecognized hq)

end

end Sys2Proof.Machine
end

section
/-! SUPPORT. Proofs of the statements of 43_reassembly.md. -/

namespace Sys2Proof.Proofs

open Sys2Proof.Machine Sys2Proof.Claims

/-- Settles O35. -/
theorem firstFragmentIsKept : Obligations.FirstFragmentIsKept :=
  ⟨fun _ _ _ => process_of_empty, fun _ _ => exec_drain_of_empty⟩

/-- Settles O36. -/
theorem rebuiltFrameIsFiled : Obligations.RebuiltFrameIsFiled :=
  ⟨fun _ _ _ hc hp hq => ⟨fun _ _ => process_of_completing_entry hc hp hq, process_of_completing_drop hc hp hq,
      decodeFrame_ne_unrecognized hq⟩,
    fun _ _ hc hp hcq hq => ⟨fun _ _ => exec_drain_of_completing_entry hc hp hcq hq,
      exec_drain_of_completing_drop hc hp hcq hq⟩⟩

/-- Settles O37. -/
theorem lossBoundDiscards : Obligations.LossBoundDiscards :=
  ⟨fun _ _ _ hc hp hq => ⟨process_of_overlong hc hp hq, process_of_within hc hp hq⟩,
    fun _ _ hc hp hcq hq => ⟨fun hlen => exec_drain_of_process hcq (process_of_overlong hc hp hq hlen),
      fun hlen => exec_drain_of_process hcq (process_of_within hc hp hq hlen)⟩⟩

/-- Settles O38: the first DRAIN leaves `a` pending and the queue empty, so the PUSH has room and `b` completes `a`. -/
theorem twoPartReassembly : Obligations.TwoPartReassembly := by
  intro s a b hp hcq ha hb hab hlen hcands
  simp only [exists_and_left]
  exact ⟨_, exec_drain_of_empty ha hp hcq, _, exec_push_of_room hlen hcands.symm,
    exec_drain_of_completing hb rfl rfl hab⟩

/-- Settles O39: all but the oldest candidate are appended, and the oldest passes the bound. -/
theorem neverCompletingRunEmptiesTheSlot : Obligations.NeverCompletingRunEmptiesTheSlot := by
  intro s run last hp hrev hincomplete htake hwithin hover
  have hmem : ∀ c ∈ run ++ [last], isComplete c = false := by
    intro c hc
    exact hincomplete c (List.mem_reverse.1 (hrev ▸ hc))
  have hprefix : ∀ cs, cs <+: run ++ [last] → isComplete (s.pbuf ++ cs.flatten) = false := by
    intro cs hcs
    rw [List.prefix_iff_eq_take.1 hcs, ← hrev]
    exact htake cs.length
  have hrun : drainLoop s.params.lossBound run s.startCycle =
      .ok { s.startCycle with pbuf := s.pbuf ++ run.flatten } :=
    drainLoop_of_within hp (fun c hc => hmem c (List.mem_append_left _ hc))
      (fun cs hcs => hprefix cs (hcs.trans (List.prefix_append _ _))) hwithin
  have hlast : isComplete (s.pbuf ++ run.flatten ++ last) = false := by
    simpa using hprefix (run ++ [last]) (List.prefix_refl _)
  have hstep := process_of_overlong (cy := { s.startCycle with pbuf := s.pbuf ++ run.flatten })
    (hmem last (by simp)) hp hlast hover
  refine exec_drain_of_loop (cy := { s.startCycle with pstate := .empty, pbuf := [] }) ?_
  rw [hrev, drainLoop_append hrun, drainLoop_cons hstep, drainLoop_nil]

end Sys2Proof.Proofs
end

section
/-! SUPPORT. Frame-decoding proofs: what `decode` makes of a frame by its identity, and of a built frame (44_demux.md R140 to
R142; 41_codec.md R116). -/

namespace Sys2Proof.Machine

theorem entryOf_of_ok {f : Bytes} (h : verify f = .ok) (pl : Bytes) : entryOf f pl = ⟨.ok, some pl⟩ := if_pos h

theorem keyed_reserved (e : Entry) : keyed wire.reserved e = .drop := if_pos rfl

theorem keyed_of_ne {k : Key} (h : k ≠ wire.reserved) (e : Entry) : keyed k e = .entry k e := if_neg h

section
variable {f : Bytes}

theorem decodeFrame_of_init (h : (unstuff f).head? = some wire.init) :
    decodeFrame f = .entry wire.init (entryOf f (slice 0 ((unstuff f).length - 2) (unstuff f))) := by
  simp only [decodeFrame, h]
  rfl

theorem decodeFrame_of_heartbeat (h : (unstuff f).head? = some wire.heartbeat) :
    decodeFrame f = .entry wire.heartbeat (entryOf f (slice 2 ((unstuff f).length - 2) (unstuff f))) := by
  simp only [decodeFrame, h]
  rfl

/-- COMM and SENSOR share one arm. -/
theorem decodeFrame_of_sub {id : Byte} (hid : id = wire.comm ∨ id = wire.sensor) (h : (unstuff f).head? = some id) :
    decodeFrame f = decodeSub f (unstuff f) := by
  rcases hid with rfl | rfl <;> simp only [decodeFrame, h] <;> rfl

end

theorem decodeSub_of_short {u : Bytes} (h : u.length < 5) (f : Bytes) : decodeSub f u = .drop := by
  rcases decodeSub_cases f u with hdrop | ⟨_, -, hlen, -⟩
  · exact hdrop
  · omega

theorem decodeSub_of_key {u : Bytes} {k : Key} (hlen : 5 ≤ u.length) (hk : u[2]? = some k) (f : Bytes) :
    decodeSub f u = keyed k (entryOf f (slice 3 (u.length - 2) u)) := by
  match u with
  | _ :: _ :: _ :: _ =>
    obtain rfl := Option.some.inj hk
    exact if_neg (Nat.not_lt.2 hlen)

/-! ### Built frames -/

section
variable {id : Byte} (hid : isIdentity id = true) (body : Bytes)
include hid

theorem unstuff_build_head? : (unstuff (build id body)).head? = some id := by
  rw [unstuff_build hid]
  rfl

theorem unstuff_build_length : (unstuff (build id body)).length = body.length + 3 := by
  simp [unstuff_build hid]

/-- The payload of a built frame is what follows the payload offset in its identity and body. -/
theorem entryOf_build (a : Nat) :
    entryOf (build id body) (slice a ((unstuff (build id body)).length - 2) (unstuff (build id body))) =
      ⟨.ok, some ((id :: body).drop a)⟩ := by
  have hspan : (unstuff (build id body)).length - 2 = ([id] ++ body).length := by
    rw [unstuff_build_length hid, List.length_append, List.length_singleton]
    omega
  rw [entryOf_of_ok (verify_build hid body), hspan, unstuff_build hid, slice, List.take_left]
  rfl

end

theorem decodeFrame_build_init (body : Bytes) :
    decodeFrame (build wire.init body) = .entry wire.init ⟨.ok, some (wire.init :: body)⟩ := by
  rw [decodeFrame_of_init (unstuff_build_head? rfl body), entryOf_build rfl]
  rfl

theorem decodeFrame_build_heartbeat (body : Bytes) :
    decodeFrame (build wire.heartbeat body) = .entry wire.heartbeat ⟨.ok, some (body.drop 1)⟩ := by
  rw [decodeFrame_of_heartbeat (unstuff_build_head? rfl body), entryOf_build rfl]
  rfl

theorem decodeFrame_build_sub {id : Byte} (hid : id = wire.comm ∨ id = wire.sensor) {body : Bytes} {k : Key}
    (hk : body[1]? = some k) (hne : k ≠ wire.reserved) :
    decodeFrame (build id body) = .entry k ⟨.ok, some (body.drop 2)⟩ := by
  have hident : isIdentity id = true := by rcases hid with rfl | rfl <;> rfl
  obtain ⟨hlen, -⟩ := List.getElem?_eq_some_iff.1 hk
  have hkey : (unstuff (build id body))[2]? = some k := by
    rw [unstuff_build hident, List.getElem?_append_left (by simpa using Nat.succ_lt_succ hlen)]
    exact hk
  rw [decodeFrame_of_sub hid (unstuff_build_head? hident body),
    decodeSub_of_key (by rw [unstuff_build_length hident]; omega) hkey, keyed_of_ne hne, entryOf_build hident]
  rfl

end Sys2Proof.Machine
end

section
/-! SUPPORT. Filing proofs: what one candidate and a whole DRAIN can do to TABLE and to the keys seen (44_demux.md R143 to
R145, R147). -/

namespace Sys2Proof.Machine

open Sys2Proof.Claims

/-! ### One candidate -/

theorem file_of_mem {k : Key} {cy : Cycle} (h : k ∈ cy.seen) (e : Entry) : file k e cy = cy := if_pos h

/-- R143: filing leaves every key but its own. -/
theorem file_table_get_of_ne {k k' : Key} (h : k' ≠ k) (e : Entry) (cy : Cycle) :
    (file k e cy).table.get k' = cy.table.get k' := by
  rcases file_cases k e cy with ⟨-, hfile⟩ | ⟨-, hfile⟩
  · rw [hfile]
  · rw [hfile]
    exact Table.get_set_of_ne h cy.table e

section
variable {lb : Nat} {c : Bytes} {cy : Cycle}

theorem process_of_complete (hc : isComplete c = true) : process lb c cy = fileDecoded (decodeFrame c) cy := by
  simp [process, hc]

theorem process_of_entry {k : Key} {e : Entry} (hc : isComplete c = true) (hd : decodeFrame c = .entry k e) :
    process lb c cy = .ok (file k e cy) := by
  rw [process_of_complete hc, hd, fileDecoded]

theorem process_of_drop (hc : isComplete c = true) (hd : decodeFrame c = .drop) : process lb c cy = .ok cy := by
  rw [process_of_complete hc, hd, fileDecoded]

/-- A complete candidate is dropped or filed, whatever is pending. -/
theorem process_complete_cases (lb : Nat) (hc : isComplete c = true) (cy : Cycle) :
    (decodeFrame c = .drop ∧ process lb c cy = .ok cy) ∨
      ∃ k e, decodeFrame c = .entry k e ∧ process lb c cy = .ok (file k e cy) := by
  cases hd : decodeFrame c with
  | drop => exact .inl ⟨rfl, process_of_drop hc hd⟩
  | entry k e => exact .inr ⟨k, e, rfl, process_of_entry hc hd⟩
  | unrecognized => exact absurd hd (decodeFrame_ne_unrecognized hc)

end

/-- What a candidate can do to TABLE and to the keys seen: nothing, or the first filing of a key in the cycle, with the Entry
of a complete frame, be it the candidate itself or one rebuilt with what was pending. -/
inductive Filing (cy cy' : Cycle) : Prop
  | unfiled (htable : cy'.table = cy.table) (hseen : cy'.seen = cy.seen)
  | first (f : Bytes) (k : Key) (e : Entry) (hf : isComplete f = true) (hd : decodeFrame f = .entry k e)
      (hk : k ∉ cy.seen) (htable : cy'.table = cy.table.set k e) (hseen : cy'.seen = k :: cy.seen)

theorem filing_of_fileDecoded {f : Bytes} {cy cy' : Cycle} (hf : isComplete f = true)
    (h : fileDecoded (decodeFrame f) cy = .ok cy') : Filing cy cy' := by
  rcases fileDecoded_complete hf cy with ⟨-, hdrop⟩ | ⟨k, a, b, -, hd, hfiled⟩
  · obtain rfl := Except.ok.inj (hdrop.symm.trans h)
    exact .unfiled rfl rfl
  · obtain rfl := Except.ok.inj (hfiled.symm.trans h)
    rcases file_cases k (entryOf f (slice a b (unstuff f))) cy with ⟨-, hfile⟩ | ⟨hk, hfile⟩
    · rw [hfile]
      exact .unfiled rfl rfl
    · rw [hfile]
      exact .first f k _ hf hd hk rfl rfl

theorem filing_of_process {lb : Nat} {c : Bytes} {cy cy' : Cycle} (h : process lb c cy = .ok cy') : Filing cy cy' := by
  rcases process_cases lb c cy with
    ⟨hc, hproc⟩ | ⟨-, -, hproc⟩ | ⟨-, -, hq, hproc⟩ | ⟨-, -, -, -, hproc⟩ | ⟨-, -, -, -, hproc⟩
  · exact filing_of_fileDecoded hc (hproc.symm.trans h)
  · obtain rfl := Except.ok.inj (hproc.symm.trans h)
    exact .unfiled rfl rfl
  · have hfiling := filing_of_fileDecoded hq (hproc.symm.trans h)
    cases hfiling with
    | unfiled htable hseen => exact .unfiled htable hseen
    | first f k e hf hd hk htable hseen => exact .first f k e hf hd hk htable hseen
  · obtain rfl := Except.ok.inj (hproc.symm.trans h)
    exact .unfiled rfl rfl
  · obtain rfl := Except.ok.inj (hproc.symm.trans h)
    exact .unfiled rfl rfl

/-! ### One key over a cycle -/

/-- The slot `k` is as in `t`, or holds the Entry of a complete frame that decodes to `k`. -/
def KeptOrFiled (t : Table) (k : Key) (t' : Table) : Prop :=
  t'.get k = t.get k ∨ ∃ f e, isComplete f = true ∧ decodeFrame f = .entry k e ∧ t'.get k = some e

theorem Filing.keptOrFiled {t : Table} {k : Key} {cy cy' : Cycle} (hfiling : Filing cy cy')
    (h : KeptOrFiled t k cy.table) : KeptOrFiled t k cy'.table := by
  cases hfiling with
  | unfiled htable => rwa [htable]
  | first f k' e hf hd _ htable =>
    rw [htable]
    by_cases hk : k = k'
    · subst hk
      exact .inr ⟨f, e, hf, hd, Table.get_set_self ..⟩
    · rwa [KeptOrFiled, Table.get_set_of_ne hk]

/-- The key `k` was filed in this cycle, with `e`. -/
def FiledAs (k : Key) (e : Entry) (cy : Cycle) : Prop := k ∈ cy.seen ∧ cy.table.get k = some e

theorem filedAs_file {k : Key} {cy : Cycle} (h : k ∉ cy.seen) (e : Entry) : FiledAs k e (file k e cy) := by
  rw [file_of_not_mem h]
  exact ⟨List.mem_cons_self, Table.get_set_self ..⟩

/-- The first filing of a key in a cycle stands: no later one is under a key already seen. -/
theorem Filing.filedAs {k : Key} {e : Entry} {cy cy' : Cycle} (hfiling : Filing cy cy') (h : FiledAs k e cy) :
    FiledAs k e cy' := by
  obtain ⟨hmem, hget⟩ := h
  cases hfiling with
  | unfiled htable hseen => exact ⟨by rwa [hseen], by rwa [htable]⟩
  | first f k' e' _ _ hk' htable hseen =>
    have hne : k ≠ k' := fun heq => hk' (heq ▸ hmem)
    exact ⟨by rw [hseen]; exact List.mem_cons_of_mem k' hmem, by rwa [htable, Table.get_set_of_ne hne]⟩

/-- A complete candidate of another key does not mark `k` seen. -/
theorem not_seen_of_process {lb : Nat} {c : Bytes} {k : Key} {cy cy' : Cycle} (hc : isComplete c = true)
    (hne : ∀ e, decodeFrame c ≠ .entry k e) (hk : k ∉ cy.seen) (h : process lb c cy = .ok cy') : k ∉ cy'.seen := by
  rcases process_complete_cases lb hc cy with ⟨-, hproc⟩ | ⟨k', e, hd, hproc⟩
  · rwa [← Except.ok.inj (hproc.symm.trans h)]
  · obtain rfl := Except.ok.inj (hproc.symm.trans h)
    have hkk' : k ≠ k' := by
      rintro rfl
      exact hne e hd
    rcases file_cases k' e cy with ⟨-, hfile⟩ | ⟨-, hfile⟩
    · rwa [hfile]
    · rw [hfile]
      exact List.not_mem_cons_of_ne_of_not_mem hkk' hk

/-! ### How many slots a cycle writes -/

/-- At most `n` keys were filed in this cycle, which began with the table `t`, and only their slots were written. -/
structure FiledAtMost (t : Table) (n : Nat) (cy : Cycle) : Prop where
  nodup : cy.seen.Nodup
  length_le : cy.seen.length ≤ n
  get_of_not_seen : ∀ k, k ∉ cy.seen → cy.table.get k = t.get k

theorem Filing.filedAtMost {t : Table} {n : Nat} {cy cy' : Cycle} (hfiling : Filing cy cy') (h : FiledAtMost t n cy) :
    FiledAtMost t (n + 1) cy' := by
  obtain ⟨hnodup, hlen, hget⟩ := h
  cases hfiling with
  | unfiled htable hseen => exact ⟨by rwa [hseen], by rw [hseen]; omega, by rwa [htable, hseen]⟩
  | first f k e _ _ hk htable hseen =>
    refine ⟨by rw [hseen]; exact hnodup.cons hk, by rw [hseen]; exact Nat.succ_le_succ hlen, fun k' hk' => ?_⟩
    rw [hseen, List.mem_cons, not_or] at hk'
    rw [htable, Table.get_set_of_ne hk'.1, hget k' hk'.2]

theorem FiledAtMost.drainLoop {t : Table} {lb n : Nat} {cs : List Bytes} {cy cy' : Cycle} (h : FiledAtMost t n cy)
    (hloop : drainLoop lb cs cy = .ok cy') : FiledAtMost t (n + cs.length) cy' := by
  induction cs generalizing n cy with
  | nil => rwa [← Except.ok.inj hloop]
  | cons c cs ih =>
    obtain ⟨cy₁, hproc⟩ := process_ok lb c cy
    rw [drainLoop_cons hproc] at hloop
    rw [List.length_cons, Nat.add_comm cs.length, ← Nat.add_assoc]
    exact ih ((filing_of_process hproc).filedAtMost h) hloop

/-! ### The loop of a DRAIN -/

theorem drainLoop_eq_foldl (lb : Nat) (cs : List Bytes) (cy : Cycle) :
    drainLoop lb cs cy = cs.foldl (fun acc c => acc.bind (process lb c)) (.ok cy) := by
  induction cs generalizing cy with
  | nil => rfl
  | cons c cs ih =>
    obtain ⟨cy', hproc⟩ := process_ok lb c cy
    rw [drainLoop_cons hproc, ih, List.foldl_cons, Except.bind, hproc]

/-- R145: newest-first is a fold of the queue from the right. -/
theorem drainLoop_reverse_eq_foldr (lb : Nat) (cs : List Bytes) (cy : Cycle) :
    drainLoop lb cs.reverse cy = cs.foldr (fun c acc => acc.bind (process lb c)) (.ok cy) := by
  rw [drainLoop_eq_foldl, List.foldl_reverse]

theorem drainLoop_keptOrFiled {lb : Nat} {cs : List Bytes} {cy cy' : Cycle} (h : drainLoop lb cs cy = .ok cy')
    (k : Key) : KeptOrFiled cy.table k cy'.table := by
  obtain ⟨cy₁, hloop, hkept⟩ := drainLoop_induct (lb := lb) (cs := cs) (fun x => KeptOrFiled cy.table k x.table)
    (fun _ _ _ _ hx hproc => (filing_of_process hproc).keptOrFiled hx) cy (.inl rfl)
  rwa [← Except.ok.inj (hloop.symm.trans h)]

theorem drainLoop_filedAs {lb : Nat} {k : Key} {e : Entry} (cs : List Bytes) {cy : Cycle} (h : FiledAs k e cy) :
    ∃ cy', drainLoop lb cs cy = .ok cy' ∧ FiledAs k e cy' :=
  drainLoop_induct (FiledAs k e) (fun _ _ _ _ hx hproc => (filing_of_process hproc).filedAs hx) cy h

theorem drainLoop_not_seen {lb : Nat} {k : Key} {cs : List Bytes} {cy : Cycle}
    (hcs : ∀ c ∈ cs, isComplete c = true ∧ ∀ e, decodeFrame c ≠ .entry k e) (hk : k ∉ cy.seen) :
    ∃ cy', drainLoop lb cs cy = .ok cy' ∧ k ∉ cy'.seen :=
  drainLoop_induct (k ∉ ·.seen) (fun c hc _ _ => not_seen_of_process (hcs c hc).1 (hcs c hc).2) cy hk

/-- R150(a) inside a cycle: candidates of other keys, then the complete candidate `c`, then any others. -/
theorem drainLoop_first_filing_stands {lb : Nat} {k : Key} {e : Entry} {before : List Bytes} {c : Bytes} {cy : Cycle}
    (hbefore : ∀ x ∈ before, isComplete x = true ∧ ∀ e', decodeFrame x ≠ .entry k e') (hc : isComplete c = true)
    (hd : decodeFrame c = .entry k e) (hk : k ∉ cy.seen) (rest : List Bytes) :
    ∃ cy', drainLoop lb (before ++ c :: rest) cy = .ok cy' ∧ FiledAs k e cy' := by
  obtain ⟨cy₁, hloop₁, hk₁⟩ := drainLoop_not_seen (lb := lb) hbefore hk
  rw [drainLoop_append hloop₁, drainLoop_cons (process_of_entry hc hd)]
  exact drainLoop_filedAs rest (filedAs_file hk₁ e)

/-- The pending slot is that of `cy`, and so is every slot whose key no candidate of `cs` decodes to. -/
def OnlyFilesFrom (cs : List Bytes) (cy cy' : Cycle) : Prop :=
  cy'.pstate = cy.pstate ∧ cy'.pbuf = cy.pbuf ∧
    ∀ k, (∀ c ∈ cs, ∀ e, decodeFrame c ≠ .entry k e) → cy'.table.get k = cy.table.get k

theorem OnlyFilesFrom.process {lb : Nat} {cs : List Bytes} {cy₀ cy cy' : Cycle} {c : Bytes} (hmem : c ∈ cs)
    (hc : isComplete c = true) (h : OnlyFilesFrom cs cy₀ cy) (hproc : process lb c cy = .ok cy') :
    OnlyFilesFrom cs cy₀ cy' := by
  rcases process_complete_cases lb hc cy with ⟨-, hdrop⟩ | ⟨k, e, hd, hfiled⟩
  · rwa [← Except.ok.inj (hdrop.symm.trans hproc)]
  · obtain rfl := Except.ok.inj (hfiled.symm.trans hproc)
    obtain ⟨hpstate, hpbuf, hget⟩ := h
    refine ⟨(file_pstate k e cy).trans hpstate, (file_pbuf k e cy).trans hpbuf, fun k' hother => ?_⟩
    have hne : k' ≠ k := by
      rintro rfl
      exact hother c hmem e hd
    exact (file_table_get_of_ne hne e cy).trans (hget k' hother)

theorem drainLoop_onlyFilesFrom {lb : Nat} {cs : List Bytes} (hcs : ∀ c ∈ cs, isComplete c = true) (cy : Cycle) :
    ∃ cy', drainLoop lb cs cy = .ok cy' ∧ OnlyFilesFrom cs cy cy' :=
  drainLoop_induct (OnlyFilesFrom cs cy) (fun c hc _ _ hx hproc => hx.process hc (hcs c hc) hproc) cy
    ⟨rfl, rfl, fun _ _ => rfl⟩

/-! ### DRAIN as a command -/

theorem exec_drain_of_entry {s : State} {c : Bytes} {k : Key} {e : Entry} (hcq : s.cq = [c]) (hc : isComplete c = true)
    (hd : decodeFrame c = .entry k e) :
    exec .drain s = .next (answered { s with table := s.table.set k e, cq := [] } [0x00#8]) := by
  rw [exec_drain_of_process hcq (process_of_entry hc hd), file_of_not_mem List.not_mem_nil]
  rfl

/-- Of two complete candidates under one key only the newer one is filed. -/
theorem exec_drain_of_same_key {s : State} {c₀ c₁ : Bytes} {k : Key} {e₀ e₁ : Entry} (hcq : s.cq = [c₀, c₁])
    (hc₀ : isComplete c₀ = true) (hc₁ : isComplete c₁ = true) (hd₀ : decodeFrame c₀ = .entry k e₀)
    (hd₁ : decodeFrame c₁ = .entry k e₁) :
    exec .drain s = .next (answered { s with table := s.table.set k e₁, cq := [] } [0x00#8]) := by
  have hnew : file k e₁ s.startCycle = { s.startCycle with seen := [k], table := s.table.set k e₁ } :=
    file_of_not_mem List.not_mem_nil e₁
  refine exec_drain_of_loop (cy := { s.startCycle with seen := [k], table := s.table.set k e₁ }) ?_
  rw [hcq, List.reverse_cons, List.reverse_singleton, List.singleton_append, drainLoop_cons (process_of_entry hc₁ hd₁),
    hnew, drainLoop_cons (process_of_entry hc₀ hd₀), file_of_mem List.mem_cons_self, drainLoop_nil]

theorem exec_drain_of_empty_queue {s : State} (hcq : s.cq = []) : exec .drain s = .next (answered s [0x00#8]) := by
  have hsame : s.endCycle s.startCycle = s := by
    rw [State.endCycle, ← hcq]
    rfl
  rw [exec_drain_of_loop (cy := s.startCycle) (by rw [hcq]; rfl), hsame]

end Sys2Proof.Machine
end

section
/-! SUPPORT. Demultiplexer command proofs: the message formats N and K, the key bitmap, and what PUSH and FETCH answer
(30_encoding.md R68, R70; 44_demux.md R146 to R149). -/

namespace Sys2Proof.Machine

open Sys2Proof.Claims

/-- A row of format N in the opcode map is all that R68 and R69 (2) ask of the command. -/
theorem formatN_of_formOf {opc : Byte} {i : Instr} (hform : formOf opc = some (.n i)) : formatN opc i := by
  refine ⟨decode_of_formOf hform [], errFormatUnless_of_decode fun tail hfit => ?_⟩
  rw [decode_of_formOf hform]
  cases tail with
  | nil => exact absurd rfl hfit
  | cons => rfl

theorem decode_fetch_of_not_fits {tail : Bytes} (h : ¬ ∃ k, tail = [k]) :
    decode (0x13#8 :: tail) = .error .wrongLength := by
  match tail with
  | [] => rfl
  | [k] => exact absurd ⟨k, rfl⟩ h
  | _ :: _ :: _ => rfl

/-! ### PUSH -/

theorem exec_push_of_full {data : Bytes} {s : State} (hlen : data.length ≤ s.params.maxCandLen)
    (hfull : s.cq.length = s.params.maxCands) : exec (.push data) s = .next (answered s [0x05#8]) :=
  (checkLength_of_le hlen _).trans (checkQueue_of_eq hfull _)

theorem exec_push_of_too_long {data : Bytes} {s : State} (hlen : s.params.maxCandLen < data.length) :
    exec (.push data) s = .next (answered s [0x03#8]) :=
  checkLength_of_gt hlen _

/-! ### KEYS -/

theorem bitmapBytes_length (m : BitVec 256) : (bitmapBytes m).length = 32 := by simp [bitmapBytes]

/-- R70: key `k` is bit `k & 7` of byte `k >> 3`. -/
theorem bitmapBytes_bit (m : BitVec 256) (k : Key) :
    ((bitmapBytes m).getD (k.toNat / 8) 0x00#8).getLsbD (k.toNat % 8) = m.getLsbD k.toNat := by
  have hk : k.toNat / 8 < 32 := Nat.div_lt_of_lt_mul k.isLt
  have hbyte : (bitmapBytes m).getD (k.toNat / 8) 0x00#8 = m.extractLsb' (8 * (k.toNat / 8)) 8 := by
    simp [bitmapBytes, hk]
  have hbit : k.toNat % 8 < 8 := Nat.mod_lt _ (by decide)
  rw [hbyte, BitVec.getLsbD_extractLsb', decide_eq_true hbit, Bool.true_and, Nat.div_add_mod]

theorem validBits_bitmapBytes_bit (t : Table) (k : Key) :
    ((bitmapBytes (validBits t)).getD (k.toNat / 8) 0x00#8).getLsbD (k.toNat % 8) = (t.get k).isSome :=
  (bitmapBytes_bit _ k).trans (validBits_getLsbD t k)

/-! ### FETCH -/

theorem exec_fetch_of_some {s : State} {k : Key} {e : Entry} (h : s.table.get k = some e) :
    exec (.fetch k) s = .next (answered { s with table := s.table.erase k } (Response.rf e.status e.payload).encode) :=
  execFetch_of_some h

theorem exec_fetch_of_none {s : State} {k : Key} (h : s.table.get k = none) :
    exec (.fetch k) s = .next (answered s [0x00#8, 0x01#8, 0x00#8, 0x00#8]) :=
  execFetch_of_none h

theorem Table.get_erase_self (t : Table) (k : Key) : (t.erase k).get k = none := by
  rw [Table.get_erase, if_pos rfl]

theorem Table.get_erase_of_ne {k k' : Key} (h : k' ≠ k) (t : Table) : (t.erase k).get k' = t.get k' := by
  rw [Table.get_erase, if_neg h]

/-! ### What a command does to one slot -/

theorem Effect.get_of_ne {s u : State} {i : Instr} {k : Key} (heffect : Effect s i u) (hdrain : i ≠ .drain)
    (hreset : i ≠ .reset) (hfetch : i ≠ .fetch k) : u.table.get k = s.table.get k := by
  cases heffect with
  | unchanged | queued => rfl
  | drained => exact absurd rfl hdrain
  | fetched key =>
    have hne : k ≠ key := by
      rintro rfl
      exact hfetch rfl
    exact Table.get_erase_of_ne hne s.table
  | cleared => exact absurd rfl hreset

theorem Effect.drain_keptOrFiled {s u : State} (heffect : Effect s .drain u) (k : Key) :
    KeptOrFiled s.table k u.table := by
  cases heffect with
  | unchanged hdrain => exact absurd rfl hdrain
  | drained hloop => exact drainLoop_keptOrFiled hloop k

theorem Effect.reset_get {s u : State} (heffect : Effect s .reset u) (k : Key) : u.table.get k = none := by
  cases heffect with
  | unchanged _ hreset => exact absurd rfl hreset
  | cleared => rfl

/-- An absent key stays absent under every command but a DRAIN. -/
theorem Effect.get_of_absent {s u : State} {i : Instr} {k : Key} (heffect : Effect s i u) (hdrain : i ≠ .drain)
    (h : s.table.get k = none) : u.table.get k = none := by
  cases heffect with
  | unchanged | queued => exact h
  | drained => exact absurd rfl hdrain
  | fetched key => rw [State.withTable_table, Table.get_erase, h, ite_self]
  | cleared => rfl

/-! ### The run of the examples of R147 and R148 -/

theorem afterAll_cons {i : Instr} {s t : State} (h : exec i s = .next t) (is : List Instr) :
    afterAll (i :: is) s = afterAll is t := by
  simp [afterAll, h]

/-- R147 and R148: a COMM frame of the key 0x01. -/
def exampleFrame : Bytes := [0xAA#8, 0x01#8, 0x01#8, 0x00#8, 0x30#8, 0xC3#8, 0xEE#8]

theorem build_exampleFrame : build wire.comm [0x01#8, 0x01#8, 0x00#8, 0x30#8] = exampleFrame := by
  decide +kernel

theorem decodeFrame_exampleFrame : decodeFrame exampleFrame = .entry 0x01#8 ⟨.ok, some [0x00#8, 0x30#8]⟩ := by
  rw [← build_exampleFrame]
  exact decodeFrame_build_sub (.inl rfl) rfl (by decide)

/-- The block after the frame was pushed and drained. -/
def exampleDrained : State :=
  { State.reset with table := [(0x01#8, ⟨.ok, some [0x00#8, 0x30#8]⟩)], outbox := [[0x00#8], [0x00#8]] }

theorem afterAll_push_drain_example (is : List Instr) :
    afterAll (.push exampleFrame :: .drain :: is) State.reset = afterAll is exampleDrained := by
  rw [afterAll_cons (exec_push_of_room (by decide) (by decide)),
    afterAll_cons (exec_drain_of_entry rfl rfl decodeFrame_exampleFrame)]
  rfl

/-- R148: the bitmap of the key 0x01 alone. -/
theorem exec_keys_exampleDrained :
    exec .keys exampleDrained = .next (answered exampleDrained (0x00#8 :: 0x02#8 :: List.replicate 31 0x00#8)) :=
  rfl

end Sys2Proof.Machine
end

section
/-! SUPPORT. Proofs of the statements of 44_demux.md. -/

namespace Sys2Proof.Proofs

open Sys2Proof.Machine Sys2Proof.Claims

/-- Settles O42. -/
theorem filingUnderTheSeenSet : Obligations.FilingUnderTheSeenSet := by
  refine fun k e cy => ⟨fun hk => file_of_mem hk e, fun hk => ?_⟩
  rw [file_of_not_mem hk]
  exact ⟨fun _ => List.mem_cons, fun k' => Table.get_set cy.table k k' e, rfl, rfl⟩

/-- Settles O43. -/
theorem pushCommand : Obligations.PushCommand :=
  ⟨fun _ _ => exec_push_of_room, fun _ _ => exec_push_of_full, fun _ _ => exec_push_of_too_long,
    formatD_of_formOf rfl, rfl⟩

/-- Settles O52. -/
theorem fetchPopsOnce : Obligations.FetchPopsOnce := by
  intro s k
  cases h : s.table.get k with
  | some e => exact ⟨_, exec_fetch_of_some h, exec_fetch_of_none (Table.get_erase_self s.table k)⟩
  | none => exact ⟨_, exec_fetch_of_none h, exec_fetch_of_none h⟩

/-- Settles O41: the identity survives `unstuff` and selects the arm. -/
theorem frameDecoding : Obligations.FrameDecoding := by
  intro f id hf hid
  have hu : (unstuff f).head? = some id := (unstuff_head?_of_complete hf).trans hid
  refine ⟨?_, ?_, fun hsub => ?_, fun hd _ _ => process_of_drop hf hd, decodeFrame_ne_unrecognized hf⟩
  · rintro rfl
    exact decodeFrame_of_init hu
  · rintro rfl
    exact decodeFrame_of_heartbeat hu
  · rw [decodeFrame_of_sub hsub hu]
    refine ⟨fun hlen => decodeSub_of_short hlen f, fun k hlen hk => ?_⟩
    rw [decodeSub_of_key hlen hk]
    refine ⟨?_, fun hne => keyed_of_ne hne _⟩
    rintro rfl
    exact keyed_reserved _

/-- Settles O49. -/
theorem builtFramesDecode : Obligations.BuiltFramesDecode :=
  fun body => ⟨fun _ => decodeFrame_build_init body, fun _ => decodeFrame_build_heartbeat body,
    fun _ hid _ _ _ hk hne => decodeFrame_build_sub hid hk hne⟩

/-- Settles O44: the loop over the reversed queue is the fold of the statement. -/
theorem drainCommand : Obligations.DrainCommand := by
  refine ⟨fun s => ?_, fun _ => exec_drain_of_empty_queue, fun _ _ _ _ _ _ => exec_drain_of_same_key,
    formatN_of_formOf rfl, ?_⟩
  · obtain ⟨cy, hloop⟩ := drainLoop_ok s.params.lossBound s.cq.reverse s.startCycle
    exact ⟨cy, (drainLoop_reverse_eq_foldr ..).symm.trans hloop, exec_drain_of_loop hloop⟩
  · exact congrArg (Option.map fun t => t.table.get 0x01#8) (afterAll_push_drain_example [])

/-- Settles O45: newest-first, the candidates newer than `c` come before it. -/
theorem latestWins : Obligations.LatestWins := by
  intro s older newer c k e hcq hc hd hnewer
  have hrev : s.cq.reverse = newer.reverse ++ c :: older.reverse := by simp [hcq]
  obtain ⟨cy, hloop, -, hget⟩ := drainLoop_first_filing_stands (lb := s.params.lossBound) (cy := s.startCycle)
    (fun x hx => hnewer x (List.mem_reverse.1 hx)) hc hd List.not_mem_nil older.reverse
  exact ⟨_, exec_drain_of_loop (hrev ▸ hloop), hget⟩

/-- Settles O46: every candidate is dropped or filed, so none reaches the pending slot. -/
theorem completeCandidatesLeaveThePendingSlot : Obligations.CompleteCandidatesLeaveThePendingSlot := by
  intro s hcs
  obtain ⟨cy, hloop, hpstate, hpbuf, hget⟩ := drainLoop_onlyFilesFrom (lb := s.params.lossBound)
    (fun c hc => hcs c (List.mem_reverse.1 hc)) s.startCycle
  exact ⟨_, exec_drain_of_loop hloop, hpstate, hpbuf, fun k hk => hget k fun c hc => hk c (List.mem_reverse.1 hc)⟩

/-- Settles O47: the keys seen in the cycle. -/
theorem drainFilesAtMostTheQueue : Obligations.DrainFilesAtMostTheQueue := by
  intro s t hexec
  obtain ⟨cy, hloop⟩ := drainLoop_ok s.params.lossBound s.cq.reverse s.startCycle
  obtain rfl := Host.Outcome.next.inj (hexec.symm.trans (exec_drain_of_loop hloop))
  have hstart : FiledAtMost s.table 0 s.startCycle := ⟨List.nodup_nil, Nat.le_refl 0, fun _ _ => rfl⟩
  obtain ⟨hnodup, hlen, hget⟩ := hstart.drainLoop hloop
  exact ⟨cy.seen, hnodup, by simpa using hlen, hget⟩

/-- Settles O48, by the effects a command can have. -/
theorem entriesPersist : Obligations.EntriesPersist := by
  intro s t i k hexec
  obtain ⟨u, r, heffect, rfl⟩ := effect_of_exec hexec
  refine ⟨heffect.get_of_ne, ?_, ?_⟩
  · rintro rfl
    exact heffect.drain_keptOrFiled k
  · rintro rfl
    exact heffect.reset_get k

/-- Settles O50: the bit of 0xDE is bit 6 of byte 27. -/
theorem keysCommand : Obligations.KeysCommand := by
  refine ⟨fun s => ⟨bitmapBytes (validBits s.table), rfl, bitmapBytes_length _, validBits_bitmapBytes_bit s.table,
    fun hinv => ?_⟩, formatN_of_formOf rfl, ?_⟩
  · refine (validBits_bitmapBytes_bit s.table wire.reserved).trans ?_
    rw [hinv.reservedAbsent]
    rfl
  · exact congrArg (Option.map State.outbox)
      ((afterAll_push_drain_example [.keys]).trans (afterAll_cons exec_keys_exampleDrained []))

/-- Settles O51: an absent key is filed by a DRAIN or not at all, by the effects a command can have. -/
theorem fetchCommand : Obligations.FetchCommand := by
  refine ⟨fun s k e h => ?_, fun _ _ => exec_fetch_of_none, fun _ hinv => exec_fetch_of_none hinv.reservedAbsent,
    fun _ => rfl, errFormatUnless_of_decode fun _ => decode_fetch_of_not_fits, fun s t i k h hexec => ?_, fun s h => ?_⟩
  · refine ⟨_, exec_fetch_of_some h, Table.get_erase_self _ _, fun k' hk' => Table.get_erase_of_ne hk' _,
      rfl, rfl, rfl, rfl, rfl, fun pl hpl => ?_, fun hpl => ?_⟩
    · rw [hpl]
      rfl
    · rw [hpl]
      rfl
  · obtain ⟨u, r, heffect, rfl⟩ := effect_of_exec hexec
    by_cases hdrain : i = .drain
    · subst hdrain
      exact (heffect.drain_keptOrFiled k).imp (fun hkept => hkept.trans h) fun hfiled => ⟨rfl, hfiled⟩
    · exact .inl (heffect.get_of_absent hdrain h)
  · rw [afterAll_cons (exec_fetch_of_some h), afterAll_cons (exec_fetch_of_none (Table.get_erase_self _ _))]
    exact congrArg some (List.append_assoc ..)

end Sys2Proof.Proofs
end

section
/-! SUPPORT. Control proofs: the next state of STATUS and of RESET, and the run of the examples of 45_control.md R160 and
R161. -/

namespace Sys2Proof.Machine

open Sys2Proof.Claims

/-! ### STATUS -/

theorem PState.byte_eq_ite (ps : PState) : ps.byte = if ps = .pending then 0x01#8 else 0x00#8 := by
  cases ps with
  | empty | pending => rfl

theorem exec_status (s : State) :
    exec .status s = .next (answered s
      ([0x00#8, if s.pstate = .pending then 0x01#8 else 0x00#8] ++ lenField s.pbuf.length ++ lenField s.cq.length)) := by
  rw [← PState.byte_eq_ite]
  rfl

/-! ### RESET -/

theorem exec_reset (s : State) : exec .reset s = .next (answered s.clearElements [0x00#8]) := rfl

/-- R161: in a block right after a RESET every element has its reset value already. -/
theorem clearElements_answered_clearElements (s : State) (r : Bytes) :
    (answered s.clearElements r).clearElements = answered s.clearElements r := rfl

theorem exec_reset_of_reset (s : State) (r : Bytes) :
    exec .reset (answered s.clearElements r) = .next (answered (answered s.clearElements r) [0x00#8]) := by
  rw [exec_reset, clearElements_answered_clearElements]

/-! ### The run of the examples -/

/-- The block after the candidate `c`, too short to be a frame, was pushed and drained. -/
def fragmentDrained (c : Bytes) : State :=
  { State.reset with pstate := .pending, pbuf := c, outbox := [[0x00#8], [0x00#8]] }

theorem afterAll_push_drain_fragment {c : Bytes} (hlen : c.length ≤ 4) (is : List Instr) :
    afterAll (.push c :: .drain :: is) State.reset = afterAll is (fragmentDrained c) := by
  have hfits : c.length ≤ State.reset.params.maxCandLen := hlen.trans (by decide)
  rw [afterAll_cons (exec_push_of_room hfits (by decide)),
    afterAll_cons (exec_drain_of_empty (isComplete_of_length_le hlen) rfl rfl)]
  rfl

end Sys2Proof.Machine
end

section
/-! SUPPORT. Proofs of the statements of 45_control.md. -/

namespace Sys2Proof.Proofs

open Sys2Proof.Machine Sys2Proof.Claims

/-- Settles O53: in the example the three bytes pushed become the pending slot. -/
theorem statusCommand : Obligations.StatusCommand := by
  refine ⟨exec_status, fun _ => lenField_exact, formatN_of_formOf rfl, ?_⟩
  rw [afterAll_push_drain_fragment (by decide), afterAll_cons (exec_status _)]
  rfl

/-- Settles O54: the reset input is `clearElements`, which is RESET without its response. -/
theorem resetCommand : Obligations.ResetCommand := by
  refine ⟨fun s => ⟨_, exec_reset s, rfl, rfl, Table.get_nil, rfl, rfl, exec_reset_of_reset s _⟩,
    fun s rest hin => ⟨_, step_of_resetInput hin, exec_reset _⟩, formatN_of_formOf rfl, ?_⟩
  rw [afterAll_push_drain_fragment (by decide), afterAll_cons (exec_reset _), afterAll_cons (exec_status _)]
  rfl

end Sys2Proof.Proofs
end

section
/-! SUPPORT. Error-order proofs: which messages the decoder rejects, and the operands of those it does not (30_encoding.md R68,
R69, R71). -/

namespace Sys2Proof

open Sys2Proof.Machine Sys2Proof.Claims

/-- The operands after byte 0 fit the format (R68). -/
def Form.Fits : Form → Bytes → Prop
  | .n _, tail => tail = []
  | .k _, tail => ∃ key, tail = [key]
  | .d _, tail => fitsD tail
  | .id _, tail => fitsID tail

theorem decodeForm_of_fits {form : Form} {tail : Bytes} (h : form.Fits tail) :
    ∃ i, decodeForm form tail = .ok i := by
  cases form with
  | n i =>
    obtain rfl := h
    exact ⟨i, rfl⟩
  | k mk =>
    obtain ⟨key, rfl⟩ := h
    exact ⟨mk key, rfl⟩
  | d mk =>
    obtain ⟨hi, lo, data, rfl, hlen⟩ := h
    exact ⟨mk data, map_decodeData_eq_ok.2 ⟨data, decodeData_eq_ok.2 ⟨hi, lo, rfl, hlen⟩, rfl⟩⟩
  | id mk =>
    obtain ⟨idb, rest, rfl, hi, lo, data, rfl, hlen⟩ := h
    exact ⟨mk idb data, map_decodeData_eq_ok.2 ⟨data, decodeData_eq_ok.2 ⟨hi, lo, rfl, hlen⟩, rfl⟩⟩

theorem decodeForm_of_not_fits {form : Form} {tail : Bytes} (h : ¬ form.Fits tail) :
    decodeForm form tail = .error .wrongLength := by
  cases form with
  | n i =>
    cases tail with
    | nil => exact absurd rfl h
    | cons => rfl
  | k mk =>
    match tail with
    | [] => rfl
    | [key] => exact absurd ⟨key, rfl⟩ h
    | _ :: _ :: _ => rfl
  | d mk =>
    rw [decodeForm, decodeData_of_not_fitsD h]
    rfl
  | id mk =>
    cases tail with
    | nil => rfl
    | cons idb rest =>
      rw [decodeForm, decodeData_of_not_fitsD fun hrest => h ⟨idb, rest, rfl, hrest⟩]
      rfl

theorem opcodes_perm : opcodes.Perm (opcodeTable.map OpRow.opc) := by decide

theorem opcodeTable_formOf : ∀ r ∈ opcodeTable, formOf r.opc = some r.form := by
  simp [opcodeTable, formOf]

theorem opcodeTable_fits : ∀ r ∈ opcodeTable, ∀ tail, fits r.opc tail ↔ r.form.Fits tail := by
  simp [opcodeTable, fits, opcodesD, opcodesN, Form.Fits]

theorem formOf_of_mem_opcodes {opc : Byte} (h : opc ∈ opcodes) :
    ∃ form, formOf opc = some form ∧ ∀ tail, fits opc tail ↔ form.Fits tail := by
  obtain ⟨r, hr, rfl⟩ := List.mem_map.1 (opcodes_perm.mem_iff.1 h)
  exact ⟨r.form, opcodeTable_formOf r hr, opcodeTable_fits r hr⟩

theorem decode_of_not_mem_opcodes {opc : Byte} (h : opc ∉ opcodes) (tail : Bytes) :
    decode (opc :: tail) = .error .illegalOpcode := by
  refine decode_of_formOf_none ?_ tail
  cases hform : formOf opc with
  | none => rfl
  | some form => exact absurd (opcodes_perm.mem_iff.2 (List.mem_map_of_mem (formOf_mem hform))) h

theorem decode_of_not_fits {opc : Byte} {tail : Bytes} (hopc : opc ∈ opcodes) (h : ¬ fits opc tail) :
    decode (opc :: tail) = .error .wrongLength := by
  obtain ⟨form, hform, hfits⟩ := formOf_of_mem_opcodes hopc
  rw [decode_of_formOf hform]
  exact decodeForm_of_not_fits (mt (hfits tail).2 h)

theorem decode_of_fits {opc : Byte} {tail : Bytes} (hopc : opc ∈ opcodes) (h : fits opc tail) :
    ∃ i, decode (opc :: tail) = .ok i := by
  obtain ⟨form, hform, hfits⟩ := formOf_of_mem_opcodes hopc
  rw [decode_of_formOf hform]
  exact decodeForm_of_fits ((hfits tail).1 h)

/-- The DATA operand of a command; `[]` for a command without one. -/
def Instr.data : Instr → Bytes
  | .crc8 data => data
  | .verify data => data
  | .stuff data => data
  | .unstuff data => data
  | .classify data => data
  | .build _ data => data
  | .push data => data
  | .drain => []
  | .keys => []
  | .fetch _ => []
  | .status => []
  | .reset => []

section
variable {opc : Byte} {tail : Bytes} {i : Instr} (h : decode (opc :: tail) = .ok i)
include h

/-- A message is the encoding of the command it decodes to, so it is read back from the command's side. -/
theorem dataOperand_of_decode : dataOperand opc tail = i.data := by
  have hmsg := encode_of_decode h
  cases i with
  | _ =>
    obtain ⟨rfl, rfl⟩ := List.cons.inj hmsg
    rfl

theorem noIdentity_iff_of_decode :
    (opc = 0x06#8 ∧ (tail.head?.any isIdentity) = false) ↔ ∃ idb data, i = .build idb data ∧ isIdentity idb = false := by
  have hmsg := encode_of_decode h
  cases i with
  | _ =>
    obtain ⟨rfl, rfl⟩ := List.cons.inj hmsg
    simp

theorem isPush_iff_of_decode : opc = 0x10#8 ↔ ∃ data, i = .push data := by
  have hmsg := encode_of_decode h
  cases i with
  | _ =>
    obtain ⟨rfl, rfl⟩ := List.cons.inj hmsg
    simp

end

end Sys2Proof
end

section
/-! SUPPORT. Error-order proofs: what a command answers in the order of its operand checks, and a run by its first step
(60_exceptions.md R172, R174). -/

namespace Sys2Proof.Machine

open Sys2Proof.Claims

/-! ### The commands' checks -/

theorem exec_of_too_long {i : Instr} {s : State} (h : s.params.maxCandLen < i.data.length) :
    exec i s = .next (answered s [0x03#8]) := by
  cases i with
  | crc8 | verify | stuff | unstuff | classify | build | push => exact checkLength_of_gt h _
  | drain | keys | fetch | status | reset => exact absurd h (Nat.not_lt_zero _)

/-- `out` completes a command begun in `s` with an ACK response. -/
def Acks (s : State) (out : Result) : Prop := ∃ t body, out = .next t ∧ t.outbox = s.outbox ++ [0x00#8 :: body]

theorem acks_execFetch (key : Key) (s : State) : Acks s (execFetch key s) := by
  cases h : s.table.get key with
  | some e =>
    obtain ⟨status, payload⟩ := e
    cases payload with
    | none | some => exact ⟨_, _, execFetch_of_some h, rfl⟩
  | none => exact ⟨_, _, execFetch_of_none h, rfl⟩

/-- A command that passes its operand checks is answered ACK, in any state. -/
theorem acks_exec {i : Instr} {s : State} (hlen : i.data.length ≤ s.params.maxCandLen)
    (hid : ∀ idb data, i = .build idb data → isIdentity idb = true)
    (hroom : ∀ data, i = .push data → s.cq.length ≠ s.params.maxCands) : Acks s (exec i s) := by
  cases i with
  | crc8 | verify | stuff | unstuff | classify => exact ⟨_, _, checkLength_of_le hlen _, rfl⟩
  | build idb data => exact ⟨_, _, execBuild_eq_answered hlen (hid idb data rfl), rfl⟩
  | push data => exact ⟨_, _, exec_push_of_room hlen (hroom data rfl), rfl⟩
  | drain =>
    obtain ⟨cy, hloop⟩ := drainLoop_ok s.params.lossBound s.cq.reverse s.startCycle
    exact ⟨_, _, exec_drain_of_loop hloop, rfl⟩
  | keys => exact ⟨_, _, rfl, rfl⟩
  | fetch key => exact acks_execFetch key s
  | status => exact ⟨_, _, exec_status s, rfl⟩
  | reset => exact ⟨_, _, exec_reset s, rfl⟩

/-! ### Runs -/

theorem run_succ_of_step {s t : State} (h : step s = .next t) (n : Nat) :
    Host.Core.run core (n + 1) s = Host.Core.run core n t := by
  have hcore : core.step s = .next t := h
  simp only [Host.Core.run, hcore]

end Sys2Proof.Machine
end

section
/-! SUPPORT. Proofs of the statements of 60_exceptions.md. -/

namespace Sys2Proof.Proofs

open Sys2Proof.Machine Sys2Proof.Claims

/-- Settles O9: every step completes, so a run goes on from the state its first step answers. -/
theorem noRunStops : Obligations.NoRunStops := by
  intro s n
  induction n generalizing s with
  | zero => exact ⟨s, rfl⟩
  | succ n ih =>
    obtain ⟨t, hstep⟩ := step_completes s
    rw [run_succ_of_step hstep]
    exact ih t

/-- Settles O10: a response that is no ACK is an error code alone, and then it is the whole effect. -/
theorem errorResponseChangesNoState : Obligations.ErrorResponseChangesNoState := by
  intro s t m rest rc body hin hstep hsent hrc
  obtain ⟨u, r, hu, -, -, houtbox, herr⟩ := respondsOnce_step hin
  obtain rfl : t = u.respond r := Host.Outcome.next.inj (hstep.symm.trans hu)
  have hcode : r.encode = rc :: body := by simpa [houtbox] using hsent
  rcases r.encode_cases with ⟨code, rfl⟩ | ⟨payload, hack⟩
  · obtain rfl := herr code rfl
    obtain ⟨rfl, -⟩ := List.cons.inj hcode
    rfl
  · exact absurd (List.cons.inj (hcode.symm.trans hack)).1 hrc

/-- Settles O11: the decoder's checks come first, then those of the command it decodes to. -/
theorem errorPriority : Obligations.ErrorPriority := by
  intro s rest m hin
  refine ⟨?_, ?_⟩
  · rintro rfl
    exact step_of_decode_error hin rfl
  rintro opc tail rfl
  refine ⟨fun hopc => step_of_decode_error hin (decode_of_not_mem_opcodes hopc tail),
    fun hopc hfit => step_of_decode_error hin (decode_of_not_fits hopc hfit), fun hopc hfit hlen => ?_,
    fun hopc hfit hlen => ?_⟩
  all_goals
    obtain ⟨i, hi⟩ := decode_of_fits hopc hfit
    rw [dataOperand_of_decode hi] at hlen
    rw [step_of_decode_ok hin hi]
  · exact exec_of_too_long hlen
  · rw [noIdentity_iff_of_decode hi, isPush_iff_of_decode hi]
    refine ⟨?_, ?_, fun ⟨hid, hroom⟩ => acks_exec hlen (fun idb data hbuild => ?_) fun data hpush hfull => ?_⟩
    · rintro ⟨idb, data, rfl, hid⟩
      exact execBuild_eq_errIdentity hlen hid
    · rintro ⟨⟨data, rfl⟩, hfull⟩
      exact exec_push_of_full hlen hfull
    · exact Bool.of_not_eq_false fun hno => hid ⟨idb, data, hbuild, hno⟩
    · exact hroom ⟨⟨data, hpush⟩, hfull⟩

/-- Settles O7. -/
theorem idlePortStepChangesNothing : Obligations.IdlePortStepChangesNothing := fun _ => step_of_idle

end Sys2Proof.Proofs
end

section
/-! SUPPORT. Concatenation proofs: a DRAIN of two candidates, newest first (70_reset_and_hazards.md R192). -/

namespace Sys2Proof.Machine

open Sys2Proof.Claims

/-- A DRAIN of two candidates is the newer one's step, then the older one's. -/
theorem exec_drain_of_process_pair {s : State} {c₀ c₁ : Bytes} {cy cy' : Cycle} (hcq : s.cq = [c₀, c₁])
    (hnewer : process s.params.lossBound c₁ s.startCycle = .ok cy) (holder : process s.params.lossBound c₀ cy = .ok cy') :
    exec .drain s = .next (answered (s.endCycle cy') [0x00#8]) := by
  have hreverse : s.cq.reverse = [c₁, c₀] := by rw [hcq]; rfl
  refine exec_drain_of_loop ?_
  rw [hreverse, drainLoop_cons hnewer, drainLoop_cons holder, drainLoop_nil]

end Sys2Proof.Machine
end

section
/-! SUPPORT. Proofs of the statements of 70_reset_and_hazards.md. -/

namespace Sys2Proof.Proofs

open Sys2Proof.Machine Sys2Proof.Claims

/-- Settles O40: the newer candidate opens the slot or is appended to it, and the older one is appended after it; what the
newer one leaves is within the bound because the longer result is. -/
theorem newestFirstConcatenation : Obligations.NewestFirstConcatenation := by
  refine ⟨fun s c₀ c₁ hp hcq hc₀ hc₁ hq hlen => ?_, fun s c₀ c₁ hp hcq hc₀ hc₁ hq₁ hq hlen => ?_⟩
  · exact exec_drain_of_process_pair hcq (process_of_empty hc₁ hp) (process_of_within hc₀ rfl hq hlen)
  · have hlen₁ : (s.pbuf ++ c₁).length ≤ s.params.lossBound :=
      (List.prefix_append _ c₀).length_le.trans hlen
    exact exec_drain_of_process_pair hcq (process_of_within hc₁ hp hq₁ hlen₁) (process_of_within hc₀ hp hq hlen)

/-- Settles O5: both are `clearElements` of the state with the event taken. -/
theorem resetInputAndResetCommandAgree : Obligations.ResetInputAndResetCommandAgree :=
  fun _ _ hin => ⟨_, step_of_resetInput hin, rfl, rfl, Table.get_nil, rfl, rfl, rfl, rfl, exec_reset _⟩

end Sys2Proof.Proofs
end
